-- ==== Sys2Proof/Word.lean ====
section
/-! DEFINITION. The word types of the PMOVSX machine (00_scope.md R10, R12). -/

namespace Sys2Proof

/-- One byte of memory or of the instruction stream. -/
abbrev Byte := BitVec 8

/-- A 64-bit word: a general register, the instruction pointer, a linear address, a control register. -/
abbrev Word := BitVec 64

/-- The XMM view of a vector register, bits 127:0 (R12); also the widest source operand. -/
abbrev Xmm := BitVec 128

/-- A whole vector register, bits 255:0 (R7, R12). -/
abbrev Vec := BitVec 256

/-- A vector register number, 0 to 15 (10_state.md R20, R23). -/
abbrev VReg := Fin 16

/-- A general register number, 0 to 15 (10_state.md R24). -/
abbrev GReg := Fin 16

end Sys2Proof
end

