-- ==== Sys2Proof/Config.lean ====
section
/-! DEFINITION. What the environment fixes for a whole run (00_scope.md R5 to R9, 70_reset_and_hazards.md R158), and the
free values: choices the spec leaves open, as constants without a body. -/

namespace Sys2Proof

/-- `MODE` (R5). `other` is every mode the spec refuses: real-address, virtual-8086 and system-management mode, and
16-bit default code (decision D2, item U23). -/
inductive Mode where
  | m64
  | m32
  | other
deriving DecidableEq, Repr

/-- The six segment registers (10_state.md R32). -/
inductive Seg where
  | cs | ss | ds | es | fs | gs
deriving DecidableEq, Repr

/-- What an access to memory is for: operand 2 of a form, or a byte of the instruction (20_memory.md R45, R52). -/
inductive AccessKind where
  | data
  | fetch
deriving DecidableEq, Repr

/-- The arguments of `MemCheck` (20_memory.md R52), and whether the access is a fetch (R45). -/
structure Access where
  kind : AccessKind
  seg : Seg
  ea : Word
  lin : Word
  nbytes : Nat
  cpl : BitVec 2
deriving DecidableEq, Repr

/-- What the oracle finds. `protection` is reported as #SS(0) when the segment is SS and as #GP(0) otherwise
(60_exceptions.md R127); the page-fault code stays opaque. -/
inductive Verdict where
  | ok
  | protection
  | page (code : BitVec 32)
deriving DecidableEq, Repr, Inhabited

/-- One entry of the oracle: its answer on a range of linear addresses, for the kinds, segments and privilege levels
named (`none`: all of them). -/
structure CheckRule where
  kind : Option AccessKind
  seg : Option Seg
  cpl : Option (BitVec 2)
  first : Nat
  last : Nat
  verdict : Verdict
deriving DecidableEq, Repr

/-- The fault oracle of R52 as plain data: the first rule that applies answers. Where none applies, `rest = none` admits
the access and `rest = some k` asks the uninterpreted oracle number `k`. -/
structure MemCheck where
  rules : List CheckRule
  rest : Option Nat
deriving DecidableEq, Repr

/-- A range of linear addresses, both ends included. -/
structure Region where
  first : Nat
  last : Nat
deriving DecidableEq, Repr

/-- The configuration of a run: constant while it lasts (R5 to R9, R158). -/
structure Config where
  mode : Mode
  hasSse41 : Bool
  hasAvx : Bool
  hasAvx2 : Bool
  /-- `LAW`, the implemented linear-address width (20_memory.md R51). -/
  law : Nat
  memCheck : MemCheck
  /-- Device memory, which a form may not read (20_memory.md R42). -/
  devices : List Region
  /-- `END` (70_reset_and_hazards.md R153); `none`: the environment has named no end. -/
  endPc : Option Word
  /-- A debug feature is armed (60_exceptions.md R145). -/
  debugArmed : Bool
deriving DecidableEq, Repr

/-- Free value: what the oracle answers where its rules are silent (R52, decision D11: any function). -/
opaque Config.memCheckRest : Nat → Access → Verdict

/-- Free value: whether a misaligned 16-byte operand raises #AC(0) while alignment checking is enabled
(60_exceptions.md R128, decision D26). -/
opaque Config.misaligned16Raises : Nat → Bool

/-- Free value: whether #SS(0)/#GP(0) is reported before #PF where both apply to one operand (decision D18). -/
opaque Config.protectionBeforePage : Nat → Bool

/-- Free value: whether #AC(0) is reported before the fault of `MemCheck` where both apply (decision D18). -/
opaque Config.alignmentBeforeMemCheck : Nat → Bool

end Sys2Proof
end

