-- ==== Sys2Proof/Syntax.lean ====
section
/-! DEFINITION. The 18 forms (00_scope.md R1, 30_encoding.md R77), each with the fields its encoding has. The fields are
the manual's own; what they mean in a mode (register numbers, the memory operand, the length) is read from them in
Machine/Operands.lean by R67 to R70, R75 and R76. -/

namespace Sys2Proof

/-- A prefix byte before the escape or VEX byte (30_encoding.md R62). -/
inductive Pfx where
  | opSize
  | addrSize
  | seg (s : Seg)
  | lock
  | repne
  | rep
deriving DecidableEq, Repr

/-- A REX byte, 40h to 4Fh (30_encoding.md R63). -/
structure Rex where
  w : Bool
  r : Bool
  x : Bool
  b : Bool
deriving DecidableEq, Repr

/-- A SIB byte (30_encoding.md R65). -/
structure Sib where
  scale : BitVec 2
  index : BitVec 3
  base : BitVec 3
deriving DecidableEq, Repr

/-- The displacement bytes of a memory operand (30_encoding.md R66). -/
inductive Disp where
  | none
  | d8 (v : BitVec 8)
  | d16 (v : BitVec 16)
  | d32 (v : BitVec 32)
deriving DecidableEq, Repr

/-- ModRM.mod, ModRM.r/m and what follows them: operand 2 as encoded (30_encoding.md R64 to R66). -/
structure RM where
  mod : BitVec 2
  rm : BitVec 3
  sib : Option Sib
  disp : Disp
deriving DecidableEq, Repr

/-- The encoding of a legacy form but for its opcode byte (format `LEGACY_RM`, R60 to R63). `pfx` keeps the order of
the prefix bytes. -/
structure LegacyEnc where
  pfx : List Pfx
  rex : Option Rex
  reg : BitVec 3
  rm : RM
deriving DecidableEq, Repr

/-- The encoding of a VEX form but for its opcode byte and `L` (format `VEX3_RM`, R71, R72). `r`, `x`, `b` are the
register extension bits themselves, not their stored inverses; the stored `vvvv` bits of a form are 1111b. -/
structure VexEnc where
  pfx : List Pfx
  r : Bool
  x : Bool
  b : Bool
  w : Bool
  reg : BitVec 3
  rm : RM
deriving DecidableEq, Repr

/-- The instructions: one constructor for each row of spec/opcode_table.json. A name that ends in `Xmm` is the VEX.128
row of its mnemonic and one that ends in `Ymm` the VEX.256 row. -/
inductive Instr where
  /-- `66 0f 38 20 /r` PMOVSXBW xmm1, xmm2/m64 (R91) -/
  | pmovsxbw (e : LegacyEnc)
  /-- `66 0f 38 21 /r` PMOVSXBD xmm1, xmm2/m32 (R92) -/
  | pmovsxbd (e : LegacyEnc)
  /-- `66 0f 38 22 /r` PMOVSXBQ xmm1, xmm2/m16 (R93) -/
  | pmovsxbq (e : LegacyEnc)
  /-- `66 0f 38 23 /r` PMOVSXWD xmm1, xmm2/m64 (R94) -/
  | pmovsxwd (e : LegacyEnc)
  /-- `66 0f 38 24 /r` PMOVSXWQ xmm1, xmm2/m32 (R95) -/
  | pmovsxwq (e : LegacyEnc)
  /-- `66 0f 38 25 /r` PMOVSXDQ xmm1, xmm2/m64 (R96) -/
  | pmovsxdq (e : LegacyEnc)
  /-- `VEX.128.66.0F38.WIG 20 /r` VPMOVSXBW xmm1, xmm2/m64 (R101) -/
  | vpmovsxbwXmm (e : VexEnc)
  /-- `VEX.128.66.0F38.WIG 21 /r` VPMOVSXBD xmm1, xmm2/m32 (R102) -/
  | vpmovsxbdXmm (e : VexEnc)
  /-- `VEX.128.66.0F38.WIG 22 /r` VPMOVSXBQ xmm1, xmm2/m16 (R103) -/
  | vpmovsxbqXmm (e : VexEnc)
  /-- `VEX.128.66.0F38.WIG 23 /r` VPMOVSXWD xmm1, xmm2/m64 (R104) -/
  | vpmovsxwdXmm (e : VexEnc)
  /-- `VEX.128.66.0F38.WIG 24 /r` VPMOVSXWQ xmm1, xmm2/m32 (R105) -/
  | vpmovsxwqXmm (e : VexEnc)
  /-- `VEX.128.66.0F38.WIG 25 /r` VPMOVSXDQ xmm1, xmm2/m64 (R106) -/
  | vpmovsxdqXmm (e : VexEnc)
  /-- `VEX.256.66.0F38.WIG 20 /r` VPMOVSXBW ymm1, xmm2/m128 (R111) -/
  | vpmovsxbwYmm (e : VexEnc)
  /-- `VEX.256.66.0F38.WIG 21 /r` VPMOVSXBD ymm1, xmm2/m64 (R112) -/
  | vpmovsxbdYmm (e : VexEnc)
  /-- `VEX.256.66.0F38.WIG 22 /r` VPMOVSXBQ ymm1, xmm2/m32 (R113) -/
  | vpmovsxbqYmm (e : VexEnc)
  /-- `VEX.256.66.0F38.WIG 23 /r` VPMOVSXWD ymm1, xmm2/m128 (R114) -/
  | vpmovsxwdYmm (e : VexEnc)
  /-- `VEX.256.66.0F38.WIG 24 /r` VPMOVSXWQ ymm1, xmm2/m64 (R115) -/
  | vpmovsxwqYmm (e : VexEnc)
  /-- `VEX.256.66.0F38.WIG 25 /r` VPMOVSXDQ ymm1, xmm2/m128 (R116) -/
  | vpmovsxdqYmm (e : VexEnc)
deriving DecidableEq, Repr

end Sys2Proof
end

