-- ==== Sys2Proof/WellFormed.lean ====
section
/-! DEFINITION. Which encodings the spec admits as an instruction that executes (30_encoding.md R60 to R73), in each
mode. Written from the tables of the rules and not from the decoder. -/

namespace Sys2Proof

/-- Two prefixes of one class (R62): the two repeat bytes are one class, the six segment overrides another. -/
def Pfx.sameClass : Pfx → Pfx → Bool
  | .opSize, .opSize => true
  | .addrSize, .addrSize => true
  | .seg _, .seg _ => true
  | .lock, .lock => true
  | .repne, .repne | .repne, .rep | .rep, .repne | .rep, .rep => true
  | _, _ => false

/-- At most one prefix of each class (R62). -/
def distinctClasses : List Pfx → Bool
  | [] => true
  | p :: ps => !(ps.any p.sameClass) && distinctClasses ps

/-- LOCK, F2 and F3 never stand before a form that executes (R62, 60_exceptions.md R125). -/
def Pfx.harmless : Pfx → Bool
  | .lock | .repne | .rep => false
  | _ => true

/-- The address size is 16: prefix 67h in `M32` (R67). -/
def uses16 (mode : Mode) (pfx : List Pfx) : Bool :=
  mode == .m32 && pfx.contains .addrSize

/-- A SIB byte stands exactly at address size 32 or 64 with `mod` not 11b and `r/m` 100b (R65). -/
def Sib.presentWhen (a16 : Bool) (mod : BitVec 2) (rm : BitVec 3) : Bool :=
  !a16 && mod != 3#2 && rm == 4#3

/-- How many bytes a displacement has (R66). -/
def Disp.size : Disp → Nat
  | .none => 0
  | .d8 _ => 1
  | .d16 _ => 2
  | .d32 _ => 4

/-- The memory operand has no base: `mod` 00b with `r/m` 110b at address size 16 (R69), with SIB.base 101b where there is a
SIB byte, and with `r/m` 101b where there is none (R68). -/
def RM.lacksBase (a16 : Bool) (o : RM) : Bool :=
  o.mod == 0#2 && (if a16 then o.rm == 6#3 else match o.sib with | some s => s.base == 5#3 | none => o.rm == 5#3)

/-- The displacement has the size the tables of R68 (address size 32, 64) and R69 (16) give it: a word-sized one for `mod`
10b and for an operand without a base, one byte for `mod` 01b, else none. -/
def RM.dispFits (a16 : Bool) (o : RM) : Bool :=
  if o.mod = 2#2 ∨ o.lacksBase a16 = true then o.disp.size == (if a16 then 2 else 4)
  else if o.mod = 1#2 then o.disp.size == 1
  else o.disp.size == 0

/-- Operand 2 is encoded as R64 to R69 say. -/
def RM.wf (a16 : Bool) (o : RM) : Bool :=
  o.sib.isSome == Sib.presentWhen a16 o.mod o.rm && o.dispFits a16

/-- A legacy form executes only with prefix 66h, without F0, F2, F3, with each class once, and with REX only in `M64`
(R62, R63). -/
def LegacyEnc.wf (mode : Mode) (e : LegacyEnc) : Bool :=
  mode != .other && distinctClasses e.pfx && e.pfx.contains .opSize && e.pfx.all Pfx.harmless
    && (mode == .m64 || e.rex.isNone) && e.rm.wf (uses16 mode e.pfx)

/-- A VEX form executes only without 66, F0, F2, F3 before C4, and in `M32` only with R = X = 0 (R62, R73). -/
def VexEnc.wf (mode : Mode) (e : VexEnc) : Bool :=
  mode != .other && distinctClasses e.pfx && !e.pfx.contains .opSize && e.pfx.all Pfx.harmless
    && (mode == .m64 || (!e.r && !e.x)) && e.rm.wf (uses16 mode e.pfx)

/-- The instruction is one the spec admits in this mode. -/
def Instr.wf (mode : Mode) : Instr → Bool
  | .pmovsxbw e => e.wf mode
  | .pmovsxbd e => e.wf mode
  | .pmovsxbq e => e.wf mode
  | .pmovsxwd e => e.wf mode
  | .pmovsxwq e => e.wf mode
  | .pmovsxdq e => e.wf mode
  | .vpmovsxbwXmm e => e.wf mode
  | .vpmovsxbdXmm e => e.wf mode
  | .vpmovsxbqXmm e => e.wf mode
  | .vpmovsxwdXmm e => e.wf mode
  | .vpmovsxwqXmm e => e.wf mode
  | .vpmovsxdqXmm e => e.wf mode
  | .vpmovsxbwYmm e => e.wf mode
  | .vpmovsxbdYmm e => e.wf mode
  | .vpmovsxbqYmm e => e.wf mode
  | .vpmovsxwdYmm e => e.wf mode
  | .vpmovsxwqYmm e => e.wf mode
  | .vpmovsxdqYmm e => e.wf mode

end Sys2Proof
end

