-- ==== Sys2Proof/Decode.lean ====
section
/-! DEFINITION. The decoding procedure `Decode(pc, MODE)` of 30_encoding.md R83, total on any bytes, and after it the
encoder, written from the same layouts (R61 to R73). -/

namespace Sys2Proof

/-- Why a byte sequence has no meaning in the spec: it is refused by name and is not #UD (R62, R80). -/
inductive DecodeRefusal where
  /-- Two prefixes of one class (R62). -/
  | repeatedPrefixClass
  /-- F2 or F3 before a legacy form (R62). -/
  | repeatWithLegacyForm
  /-- 0F 38 2x without a 66 prefix (R61). -/
  | noOperandSizePrefix
  /-- Another instruction of the enclosing machine (R80), LES in `M32` among them (R73). -/
  | notInFamily
  /-- The mode is neither `M64` nor `M32` (R5, D2). -/
  | modeOutsideSpec
  /-- The bytes given end before the instruction does. A fetch window of 15 bytes never does that (R76). -/
  | needsMoreBytes
deriving DecidableEq, Repr

/-- The outcomes of decoding (R83): what was read and the bytes after it; #UD; a refusal; or the bytes ran out. -/
inductive Decoded (α : Type) where
  | ok (a : α) (rest : List Byte)
  | undefinedOpcode
  | refused (why : DecodeRefusal)
  | truncated
deriving DecidableEq, Repr

/-- Go on with what was read. -/
def Decoded.andThen {α β : Type} (d : Decoded α) (f : α → List Byte → Decoded β) : Decoded β :=
  match d with
  | .ok a rest => f a rest
  | .undefinedOpcode => .undefinedOpcode
  | .refused why => .refused why
  | .truncated => .truncated

/-- The prefix bytes (R62). -/
def Pfx.byte : Pfx → Byte
  | .opSize => 0x66
  | .addrSize => 0x67
  | .seg .cs => 0x2E
  | .seg .ss => 0x36
  | .seg .ds => 0x3E
  | .seg .es => 0x26
  | .seg .fs => 0x64
  | .seg .gs => 0x65
  | .lock => 0xF0
  | .repne => 0xF2
  | .rep => 0xF3

/-- Every prefix the grammar of R62 knows. -/
def allPrefixes : List Pfx :=
  [.opSize, .addrSize, .seg .cs, .seg .ss, .seg .ds, .seg .es, .seg .fs, .seg .gs, .lock, .repne, .rep]

/-- The prefix a byte is, if it is one (R62). -/
def prefixOf (b : Byte) : Option Pfx :=
  allPrefixes.find? fun p => p.byte == b

/-- R83 step 1: the prefix bytes, in order, each class at most once. `seen` are those already read. -/
def scanPrefixes : List Byte → List Pfx → Decoded (List Pfx)
  | [], _ => .truncated
  | b :: bs, seen =>
    match prefixOf b with
    | none => .ok [] (b :: bs)
    | some p =>
      if seen.any p.sameClass then .refused .repeatedPrefixClass
      else (scanPrefixes bs (p :: seen)).andThen fun ps rest => .ok (p :: ps) rest

/-- The six element pairs that the low three bits of `op` select (R77). -/
inductive Pair where
  | bw | bd | bq | wd | wq | dq
deriving DecidableEq, Repr

/-- The opcode byte of a pair (R77). -/
def Pair.opcode : Pair → Byte
  | .bw => 0x20
  | .bd => 0x21
  | .bq => 0x22
  | .wd => 0x23
  | .wq => 0x24
  | .dq => 0x25

/-- The pair of an opcode byte, where it is 20h to 25h (R77, R83). -/
def pairOf (op : Byte) : Option Pair :=
  [Pair.bw, .bd, .bq, .wd, .wq, .dq].find? fun k => k.opcode == op

/-- The legacy row of a pair (R77). -/
def legacyInstr (k : Pair) (e : LegacyEnc) : Instr :=
  match k with
  | .bw => .pmovsxbw e
  | .bd => .pmovsxbd e
  | .bq => .pmovsxbq e
  | .wd => .pmovsxwd e
  | .wq => .pmovsxwq e
  | .dq => .pmovsxdq e

/-- The VEX row of a pair, by `VEX.L` (R77, R79). -/
def vexInstr (l : Bool) (k : Pair) (e : VexEnc) : Instr :=
  match l, k with
  | false, .bw => .vpmovsxbwXmm e
  | false, .bd => .vpmovsxbdXmm e
  | false, .bq => .vpmovsxbqXmm e
  | false, .wd => .vpmovsxwdXmm e
  | false, .wq => .vpmovsxwqXmm e
  | false, .dq => .vpmovsxdqXmm e
  | true, .bw => .vpmovsxbwYmm e
  | true, .bd => .vpmovsxbdYmm e
  | true, .bq => .vpmovsxbqYmm e
  | true, .wd => .vpmovsxwdYmm e
  | true, .wq => .vpmovsxwqYmm e
  | true, .dq => .vpmovsxdqYmm e

/-- A byte 40h to 4Fh (R63). -/
def isRex (b : Byte) : Bool :=
  b.extractLsb' 4 4 == 4#4

/-- The bits of a REX byte (R63). -/
def rexOf (b : Byte) : Rex :=
  { w := b.getLsbD 3, r := b.getLsbD 2, x := b.getLsbD 1, b := b.getLsbD 0 }

/-- The address size is 16 bits (R67). -/
def addressSize16 (mode : Mode) (ps : List Pfx) : Bool :=
  mode == .m32 && ps.contains .addrSize

/-- A SIB byte follows ModRM (R65). -/
def sibFollows (a16 : Bool) (mod : BitVec 2) (rm : BitVec 3) : Bool :=
  !a16 && mod != 3#2 && rm == 4#3

/-- How many displacement bytes follow: R68 with or without SIB, R69 at address size 16. -/
def dispBytes (a16 : Bool) (mod : BitVec 2) (rm : BitVec 3) (sib : Option Sib) : Nat :=
  if mod = 3#2 then 0
  else if mod = 1#2 then 1
  else if mod = 2#2 then (if a16 then 2 else 4)
  else if a16 then (if rm = 6#3 then 2 else 0)
  else match sib with
    | some s => if s.base = 5#3 then 4 else 0
    | none => if rm = 5#3 then 4 else 0

/-- A displacement of 0, 1, 2 or 4 bytes, least significant byte first (R66). -/
def takeDisp : Nat → List Byte → Decoded Disp
  | 0, bs => .ok .none bs
  | 1, b :: bs => .ok (.d8 b) bs
  | 2, b0 :: b1 :: bs => .ok (.d16 (b1 ++ b0)) bs
  | 4, b0 :: b1 :: b2 :: b3 :: bs => .ok (.d32 (b3 ++ b2 ++ b1 ++ b0)) bs
  | _, _ => .truncated

/-- The SIB byte, where one follows (R65). -/
def takeSib : Bool → List Byte → Decoded (Option Sib)
  | false, bs => .ok none bs
  | true, [] => .truncated
  | true, b :: bs =>
    .ok (some { scale := b.extractLsb' 6 2, index := b.extractLsb' 3 3, base := b.extractLsb' 0 3 }) bs

/-- R83 step 4: ModRM, SIB and displacement (R64 to R69): the destination field and operand 2. -/
def decodeRM (a16 : Bool) : List Byte → Decoded (BitVec 3 × RM)
  | [] => .truncated
  | m :: bs =>
    let mod : BitVec 2 := m.extractLsb' 6 2
    let rm : BitVec 3 := m.extractLsb' 0 3
    (takeSib (sibFollows a16 mod rm) bs).andThen fun sib bs' =>
      (takeDisp (dispBytes a16 mod rm sib) bs').andThen fun disp rest =>
        .ok (m.extractLsb' 3 3, { mod := mod, rm := rm, sib := sib, disp := disp }) rest

/-- A 66, F0, F2 or F3 byte: #UD before a VEX prefix (60_exceptions.md R125). -/
def Pfx.forbidsVex : Pfx → Bool
  | .opSize | .lock | .repne | .rep => true
  | _ => false

/-- F2 or F3. -/
def Pfx.isRepeat : Pfx → Bool
  | .repne | .rep => true
  | _ => false

/-- R83 step 3, VEX format, after the byte C4h. -/
def decodeVexBody (mode : Mode) (ps : List Pfx) (rex : Option Rex) (vex1 vex2 op : Byte) (bs : List Byte) :
    Decoded Instr :=
  if vex1.extractLsb' 0 5 != 2#5 || vex2.extractLsb' 0 2 != 1#2 then .refused .notInFamily
  else match pairOf op with
    | none => .refused .notInFamily
    | some k =>
      if ps.any Pfx.forbidsVex || rex.isSome then .undefinedOpcode
      else if vex2.extractLsb' 3 4 != 15#4 then .undefinedOpcode
      else (decodeRM (addressSize16 mode ps) bs).andThen fun f rest =>
        .ok (vexInstr (vex2.getLsbD 2) k
          { pfx := ps, r := !vex1.getLsbD 7, x := !vex1.getLsbD 6, b := !vex1.getLsbD 5, w := vex2.getLsbD 7,
            reg := f.1, rm := f.2 }) rest

/-- R83 step 3 at the byte C4h: LES in `M32` unless bits 7:6 of the next byte are 11b (R73). -/
def decodeC4 (mode : Mode) (ps : List Pfx) (rex : Option Rex) : List Byte → Decoded Instr
  | [] => .truncated
  | vex1 :: bs =>
    if mode != .m64 && vex1.extractLsb' 6 2 != 3#2 then .refused .notInFamily
    else match bs with
      | vex2 :: op :: rest => decodeVexBody mode ps rex vex1 vex2 op rest
      | _ => .truncated

/-- R83 step 3, legacy format, after the bytes 0F 38 op. -/
def decodeLegacyBody (mode : Mode) (ps : List Pfx) (rex : Option Rex) (op : Byte) (bs : List Byte) : Decoded Instr :=
  match pairOf op with
  | none => .refused .notInFamily
  | some k =>
    if ps.any Pfx.isRepeat then .refused .repeatWithLegacyForm
    else if !ps.contains .opSize then .refused .noOperandSizePrefix
    else if ps.contains .lock then .undefinedOpcode
    else (decodeRM (addressSize16 mode ps) bs).andThen fun f rest =>
      .ok (legacyInstr k { pfx := ps, rex := rex, reg := f.1, rm := f.2 }) rest

/-- R83 step 3 at the byte 0Fh. -/
def decodeEscape (mode : Mode) (ps : List Pfx) (rex : Option Rex) : List Byte → Decoded Instr
  | [] => .truncated
  | b :: bs =>
    if b != 0x38 then .refused .notInFamily
    else match bs with
      | [] => .truncated
      | op :: rest => decodeLegacyBody mode ps rex op rest

/-- R83 step 3: the byte that selects the format. -/
def decodeFormat (mode : Mode) (ps : List Pfx) (rex : Option Rex) : List Byte → Decoded Instr
  | [] => .truncated
  | b :: bs =>
    if b == 0xC4 then decodeC4 mode ps rex bs
    else if b == 0x0F then decodeEscape mode ps rex bs
    else .refused .notInFamily

/-- R83 step 2: the REX byte of `M64` (R63), and on to step 3. -/
def decodeAfterPrefixes (mode : Mode) (ps : List Pfx) : List Byte → Decoded Instr
  | [] => .truncated
  | b :: bs =>
    if mode == .m64 && isRex b then decodeFormat mode ps (some (rexOf b)) bs
    else decodeFormat mode ps none (b :: bs)

/-- `Decode(pc, MODE)` on the bytes from `pc` upward (R83). -/
def decode (mode : Mode) (bs : List Byte) : Decoded Instr :=
  match mode with
  | .other => .refused .modeOutsideSpec
  | _ => (scanPrefixes bs []).andThen fun ps rest => decodeAfterPrefixes mode ps rest

/-! ## The encoder -/

/-- A REX byte (R63). -/
def Rex.byte (r : Rex) : Byte :=
  4#4 ++ BitVec.ofBool r.w ++ BitVec.ofBool r.r ++ BitVec.ofBool r.x ++ BitVec.ofBool r.b

/-- A SIB byte (R65). -/
def Sib.byte (s : Sib) : Byte :=
  s.scale ++ s.index ++ s.base

/-- The displacement bytes, least significant first (R66). -/
def Disp.bytes : Disp → List Byte
  | .none => []
  | .d8 v => [v]
  | .d16 v => [v.extractLsb' 0 8, v.extractLsb' 8 8]
  | .d32 v => [v.extractLsb' 0 8, v.extractLsb' 8 8, v.extractLsb' 16 8, v.extractLsb' 24 8]

/-- ModRM, SIB and displacement (R64 to R66). -/
def RM.bytes (reg : BitVec 3) (o : RM) : List Byte :=
  (o.mod ++ reg ++ o.rm : BitVec 8) :: ((o.sib.map Sib.byte).toList ++ o.disp.bytes)

/-- `[prefixes] [REX] 0F 38 op ModRM [SIB] [disp]` (R60). -/
def LegacyEnc.bytes (k : Pair) (e : LegacyEnc) : List Byte :=
  e.pfx.map Pfx.byte ++ ((e.rex.map Rex.byte).toList ++ (0x0F :: 0x38 :: k.opcode :: e.rm.bytes e.reg))

/-- The byte `vex1` = R' X' B' 00010b, the first three stored inverted (R71, R72). -/
def VexEnc.vex1 (e : VexEnc) : Byte :=
  BitVec.ofBool (!e.r) ++ BitVec.ofBool (!e.x) ++ BitVec.ofBool (!e.b) ++ 2#5

/-- The byte `vex2` = W 1111b L 01b (R71, R72). -/
def VexEnc.vex2 (l : Bool) (e : VexEnc) : Byte :=
  BitVec.ofBool e.w ++ 15#4 ++ BitVec.ofBool l ++ 1#2

/-- `[prefixes] C4 vex1 vex2 op ModRM [SIB] [disp]` (R60). -/
def VexEnc.bytes (l : Bool) (k : Pair) (e : VexEnc) : List Byte :=
  e.pfx.map Pfx.byte ++ (0xC4 :: e.vex1 :: e.vex2 l :: k.opcode :: e.rm.bytes e.reg)

/-- The bytes of an instruction, first byte first (R60, R77). -/
def encode : Instr → List Byte
  | .pmovsxbw e => e.bytes .bw
  | .pmovsxbd e => e.bytes .bd
  | .pmovsxbq e => e.bytes .bq
  | .pmovsxwd e => e.bytes .wd
  | .pmovsxwq e => e.bytes .wq
  | .pmovsxdq e => e.bytes .dq
  | .vpmovsxbwXmm e => e.bytes false .bw
  | .vpmovsxbdXmm e => e.bytes false .bd
  | .vpmovsxbqXmm e => e.bytes false .bq
  | .vpmovsxwdXmm e => e.bytes false .wd
  | .vpmovsxwqXmm e => e.bytes false .wq
  | .vpmovsxdqXmm e => e.bytes false .dq
  | .vpmovsxbwYmm e => e.bytes true .bw
  | .vpmovsxbdYmm e => e.bytes true .bd
  | .vpmovsxbqYmm e => e.bytes true .bq
  | .vpmovsxwdYmm e => e.bytes true .wd
  | .vpmovsxwqYmm e => e.bytes true .wq
  | .vpmovsxdqYmm e => e.bytes true .dq

/-! ## The table's words -/

/-- The bytes of a number, least significant byte first. -/
def lowBytes : Nat → Nat → List Byte
  | 0, _ => []
  | n + 1, w => BitVec.ofNat 8 w :: lowBytes n (w / 256)

/-- An instruction of the opcode table as 15 bytes, the longest an instruction can be (R76): the low `nbits` bits of
`w`, first byte least significant, and zeros above them. -/
def tableBytes (nbits w : Nat) : List Byte :=
  lowBytes 15 (w % 2 ^ nbits)

/-- The instruction the decoder reads from the table word `w` in `M64`, the mode in which every field may take every
value (R63, R73). -/
def decodeTableWord (nbits w : Nat) : Option Instr :=
  match decode .m64 (tableBytes nbits w) with
  | .ok i _ => some i
  | _ => none

end Sys2Proof
end

