-- ==== Sys2Proof/Machine/State.lean ====
section
/-! DEFINITION. The state of the machine as plain data (10_state.md), its reset value, and the reasons a step stops. -/

namespace Sys2Proof.Machine

open Sys2Proof

/-- Memory: linear byte addresses and their bytes (10_state.md R33), addresses strictly rising, no entry equal to
`unlistedByte`. -/
abbrev Memory := List Host.Cell

/-- What an address that is not listed reads as. DESIGN CHOICE (log 4): the spec gives memory no reset contents. -/
def unlistedByte : Byte := 0

/-- The addresses of the list are above `low`, strictly rising and below 2^64, and no entry is `unlistedByte`. -/
def Memory.wfFrom : Nat → Memory → Bool
  | _, [] => true
  | low, (a, b) :: m => decide (low ≤ a) && decide (a < 2 ^ 64) && b != unlistedByte && Memory.wfFrom (a + 1) m

/-- The canonical form of memory. -/
def Memory.wf (m : Memory) : Bool :=
  Memory.wfFrom 0 m

/-- The segment bases (10_state.md R32). -/
structure SegBases where
  cs : Word
  ss : Word
  ds : Word
  es : Word
  fs : Word
  gs : Word
deriving DecidableEq, Repr

/-- The state of the machine. -/
structure State where
  /-- The vector registers `V[0] .. V[15]` (R20); bits 255:128 are no part of them while `VLMAX` is 128 (R7, log 19). -/
  vreg : Vector Vec 16
  /-- The general registers `x[0] .. x[15]` (R24). -/
  gpr : Vector Word 16
  /-- The instruction pointer (R26). -/
  pc : Word
  /-- RFLAGS or EFLAGS (R28). -/
  rflags : Word
  /-- The SIMD control and status register (R29), which no form reads or writes. -/
  mxcsr : BitVec 32
  /-- CR0 (R30). -/
  cr0 : Word
  /-- CR4 (R30). -/
  cr4 : Word
  /-- XCR0 (R30). -/
  xcr0 : Word
  /-- The current privilege level (R30). -/
  cpl : BitVec 2
  /-- The segment bases (R32). -/
  segBase : SegBases
  /-- Memory (R33). -/
  mem : Memory
  /-- The configuration of the run (00_scope.md R5 to R9). -/
  cfg : Config
  /-- THE MODEL'S OWN FIELD: how many instructions have completed; the free values of Config are read at it (log 11). -/
  steps : Nat
deriving DecidableEq, Repr

/-- Why the machine stops with a fault: the exceptions of 60_exceptions.md R120, each the terminal outcome
`Fault(name, code)` (R133). Safe: where the chip would enter a handler, the model stops (log 17). -/
inductive Fault where
  /-- #UD, invalid opcode: raised by the decoder and by the checks of R123 and R125. Safe. -/
  | ud
  /-- #NM, device not available: raised by the check of R126. Safe. -/
  | nm
  /-- #SS(0), stack-segment fault: raised by `MemCheck` on an access through SS (R127). Safe. -/
  | ss
  /-- #GP(0), general protection: raised by `MemCheck` on an access through another segment (R127). Safe. -/
  | gp
  /-- #PF(code), page fault: raised by `MemCheck` (R127). Safe. -/
  | pf (code : BitVec 32)
  /-- #AC(0), alignment check: raised by a misaligned operand (R128). Safe. -/
  | ac
deriving DecidableEq, Repr

/-- Why a step has no meaning in the spec. Safe, each of them: the model stops where the chip would go on. -/
inductive Refusal where
  /-- An instruction without a meaning yet: raised by `exec` alone. Safe. -/
  | notModelled (mnemonic : String)
  /-- The bytes at `pc` are no form of the family (30_encoding.md R62, R80): raised by the fetch. Safe. -/
  | undecoded (why : DecodeRefusal) (bytes : List Byte)
  /-- A memory operand runs over the end of the effective or linear address space (20_memory.md R50). Safe. -/
  | operandWraps
  /-- `pc` would wrap at the top of the address space (10_state.md R27, U21): raised by `finish`, and by the fetch where the
  bytes of an instruction run over the top. Safe. -/
  | pcWraps
  /-- A memory operand lies in device memory (20_memory.md R42). Safe. -/
  | deviceMemory
  /-- The mode is neither `M64` nor `M32` (00_scope.md R5, D2). Safe. -/
  | modeOutsideSpec
  /-- A debug feature is armed (60_exceptions.md R145, U25). Safe. -/
  | debugArmed
deriving DecidableEq, Repr

/-- The configuration before the environment has supplied one (log 3): the spec's defaults for the feature flags (R6),
the family's real-address mode (10_state.md R35), an oracle that admits every access, no device, no END. -/
def resetConfig : Config where
  mode := .other
  hasSse41 := true
  hasAvx := true
  hasAvx2 := true
  law := 48
  memCheck := { rules := [], rest := none }
  devices := []
  endPc := none
  debugArmed := false

/-- The machine right after reset: the last column of the table of 10_state.md R35, PRESUMED (log 1, log 2), since the
spec states no reset value. -/
def State.reset : State where
  vreg := Vector.replicate 16 0
  gpr := Vector.replicate 16 0
  pc := 0x0000FFF0
  rflags := 0x00000002
  mxcsr := 0x1F80
  cr0 := 0x60000010
  cr4 := 0
  xcr0 := 1
  cpl := 0
  segBase := { cs := 0xFFFF0000, ss := 0, ds := 0, es := 0, fs := 0, gs := 0 }
  mem := []
  cfg := resetConfig
  steps := 0

end Sys2Proof.Machine
end

