-- ==== Sys2Proof/Machine/Flags.lean ====
section
/-! DEFINITION. The status, control and feature bits an exception condition reads (10_state.md R28, R30, 00_scope.md R6),
and the enabling checks made of them (60_exceptions.md R123, R125, R126). No form computes a flag (R28, R29): there is no
flag computation to define. -/

namespace Sys2Proof.Machine

open Sys2Proof

/-- CR0.EM, bit 2 (R30). -/
def State.cr0Em (s : State) : Bool := s.cr0.getLsbD 2

/-- CR0.TS, bit 3 (R30). -/
def State.cr0Ts (s : State) : Bool := s.cr0.getLsbD 3

/-- CR0.AM, bit 18 (R30). -/
def State.cr0Am (s : State) : Bool := s.cr0.getLsbD 18

/-- CR4.OSFXSR, bit 9 (R30). -/
def State.cr4Osfxsr (s : State) : Bool := s.cr4.getLsbD 9

/-- CR4.OSXSAVE, bit 18 (R30). -/
def State.cr4Osxsave (s : State) : Bool := s.cr4.getLsbD 18

/-- XCR0 bit 1: SSE state enabled (R30). -/
def State.xcr0Sse (s : State) : Bool := s.xcr0.getLsbD 1

/-- XCR0 bit 2: AVX state enabled (R30). -/
def State.xcr0Avx (s : State) : Bool := s.xcr0.getLsbD 2

/-- RFLAGS.AC, bit 18 (R28, R30). -/
def State.flagsAc (s : State) : Bool := s.rflags.getLsbD 18

/-- Alignment checking is enabled: CR0.AM = 1, AC = 1 and CPL = 3 (60_exceptions.md R128). -/
def State.alignmentChecking (s : State) : Bool :=
  s.cr0Am && s.flagsAc && s.cpl == 3#2

/-- The #UD condition, and after it the #NM condition CR0.TS = 1 (R126, R131). -/
def checkEnabled (undefinedOpcode : Bool) (s : State) : Option Fault :=
  if undefinedOpcode then some .ud
  else if s.cr0Ts then some .nm
  else none

/-- A legacy form is #UD without SSE4_1, with CR0.EM = 1 or with CR4.OSFXSR = 0 (R90 step 1, R123, R125). -/
def State.legacyUndefined (s : State) : Bool :=
  !s.cfg.hasSse41 || s.cr0Em || !s.cr4Osfxsr

/-- The operating-system condition of the VEX forms: CR4.OSXSAVE = 0 or XCR0 bits 2:1 not 11b is #UD (R125). -/
def State.vexStateDisabled (s : State) : Bool :=
  !s.cr4Osxsave || !s.xcr0Sse || !s.xcr0Avx

/-- A VEX.128 form is #UD without AVX or with the extended state disabled (R100 step 1). -/
def State.vex128Undefined (s : State) : Bool :=
  !s.cfg.hasAvx || s.vexStateDisabled

/-- A VEX.256 form, `VEX.L = 1`, is #UD without AVX2 or with the extended state disabled (R110 step 1, R122). -/
def State.vex256Undefined (s : State) : Bool :=
  !s.cfg.hasAvx2 || s.vexStateDisabled

end Sys2Proof.Machine
end

