-- ==== Sys2Proof/Machine/Operands.lean ====
section
/-! DEFINITION. What the fields of an encoding mean in a mode: register numbers (30_encoding.md R75), the memory operand
(R67 to R70), the length (R76), and the address it has in a state (20_memory.md R49, R50); and the lane primitive `PSX`
(00_scope.md R11, R16). -/

namespace Sys2Proof.Machine

open Sys2Proof

/-! ## The memory operand -/

/-- The address size `asz` (R67). -/
inductive AddrSize where
  | a16
  | a32
  | a64
deriving DecidableEq, Repr

/-- `asz` in bits. -/
def AddrSize.bits : AddrSize → Nat
  | .a16 => 16
  | .a32 => 32
  | .a64 => 64

/-- The memory operand descriptor of 20_memory.md section 4. -/
structure MemOp where
  asz : AddrSize
  seg : Seg
  base : Option GReg
  index : Option GReg
  scale : Nat
  disp : Int
  riprel : Bool
deriving DecidableEq, Repr

/-- Operand 2: a vector register or memory (R64). -/
inductive Src where
  | reg (m : VReg)
  | mem (o : MemOp)
deriving DecidableEq, Repr

/-- What R83 returns beside the row of the table: the destination number, operand 2 and the length. -/
structure Form where
  dst : VReg
  src : Src
  len : Nat
deriving DecidableEq, Repr

/-- A register number: three encoded bits and the extension bit above them (R75). -/
def regNum (ext : Bool) (low : BitVec 3) : Fin 16 :=
  (BitVec.ofBool ext ++ low : BitVec 4).toFin

/-- The address size from the mode and prefix 67h (R67). -/
def addrSize (mode : Mode) (ps : List Pfx) : AddrSize :=
  match mode, ps.contains .addrSize with
  | .m64, false => .a64
  | .m64, true => .a32
  | _, false => .a32
  | _, true => .a16

/-- The segment override, where a prefix gives one (R62). -/
def segOverride : List Pfx → Option Seg
  | [] => none
  | .seg g :: _ => some g
  | _ :: ps => segOverride ps

/-- SS for base 4 or 5, DS otherwise (R70). -/
def defaultSeg : Option GReg → Seg
  | some r => if r = 4 ∨ r = 5 then .ss else .ds
  | none => .ds

/-- The segment of a memory operand: in `M64` only the overrides FS and GS take effect (R70). -/
def operandSeg (mode : Mode) (override : Option Seg) (base : Option GReg) : Seg :=
  match mode, override with
  | .m64, some .fs => .fs
  | .m64, some .gs => .gs
  | .m64, _ => defaultSeg base
  | _, some g => g
  | _, none => defaultSeg base

/-- The displacement as a signed number (R66). -/
def dispValue : Disp → Int
  | .none => 0
  | .d8 v => v.toInt
  | .d16 v => v.toInt
  | .d32 v => v.toInt

/-- Base and index at address size 16 (the table of R69). -/
def baseIndex16 (mod : BitVec 2) (rm : BitVec 3) : Option GReg × Option GReg :=
  match rm.toNat with
  | 0 => (some 3, some 6)
  | 1 => (some 3, some 7)
  | 2 => (some 5, some 6)
  | 3 => (some 5, some 7)
  | 4 => (some 6, none)
  | 5 => (some 7, none)
  | 6 => (if mod = 0#2 then none else some 5, none)
  | _ => (some 3, none)

/-- The base at address size 32 or 64 without SIB: none for `mod` 00b and `r/m` 101b (R68). -/
def baseNoSib (b : Bool) (mod : BitVec 2) (rm : BitVec 3) : Option GReg :=
  if mod = 0#2 ∧ rm = 5#3 then none else some (regNum b rm)

/-- The base with SIB: none for `mod` 00b and SIB.base 101b (R68). -/
def baseSib (b : Bool) (mod : BitVec 2) (s : Sib) : Option GReg :=
  if mod = 0#2 ∧ s.base = 5#3 then none else some (regNum b s.base)

/-- The index with SIB: none where the four-bit number is 4 (R68). -/
def indexSib (x : Bool) (s : Sib) : Option GReg :=
  if regNum x s.index = 4 then none else some (regNum x s.index)

/-- `scale` = 1, 2, 4 or 8 (R65). -/
def sibScale (s : Sib) : Nat :=
  2 ^ s.scale.toNat

/-- The memory operand of `mod`, `r/m`, SIB and displacement, with the extension bits `X` and `B` (R67 to R70). -/
def memOp (mode : Mode) (ps : List Pfx) (x b : Bool) (o : RM) : MemOp :=
  let asz := addrSize mode ps
  match asz, o.sib with
  | .a16, _ =>
    let bi := baseIndex16 o.mod o.rm
    { asz := asz, seg := operandSeg mode (segOverride ps) bi.1, base := bi.1, index := bi.2, scale := 1,
      disp := dispValue o.disp, riprel := false }
  | _, some s =>
    let base := baseSib b o.mod s
    { asz := asz, seg := operandSeg mode (segOverride ps) base, base := base, index := indexSib x s,
      scale := sibScale s, disp := dispValue o.disp, riprel := false }
  | _, none =>
    let base := baseNoSib b o.mod o.rm
    { asz := asz, seg := operandSeg mode (segOverride ps) base, base := base, index := none, scale := 1,
      disp := dispValue o.disp, riprel := mode == .m64 && base == none }

/-- Operand 2 (R64, R75). -/
def srcOf (mode : Mode) (ps : List Pfx) (x b : Bool) (o : RM) : Src :=
  if o.mod = 3#2 then .reg (regNum b o.rm) else .mem (memOp mode ps x b o)

/-- How many bytes ModRM, SIB and displacement take (R76). -/
def rmLength (o : RM) : Nat :=
  1 + (if o.sib.isSome then 1 else 0) + o.disp.size

/-- The length of a legacy form: prefixes, REX, the bytes 0F 38 op, and the operand (R76). -/
def legacyLength (e : LegacyEnc) : Nat :=
  e.pfx.length + (if e.rex.isSome then 1 else 0) + 3 + rmLength e.rm

/-- The length of a VEX form: prefixes, the bytes C4 vex1 vex2, the opcode, and the operand (R76). -/
def vexLength (e : VexEnc) : Nat :=
  e.pfx.length + 3 + 1 + rmLength e.rm

/-- The length of an instruction in bytes (R76). -/
def instrLength : Instr → Nat
  | .pmovsxbw e => legacyLength e
  | .pmovsxbd e => legacyLength e
  | .pmovsxbq e => legacyLength e
  | .pmovsxwd e => legacyLength e
  | .pmovsxwq e => legacyLength e
  | .pmovsxdq e => legacyLength e
  | .vpmovsxbwXmm e => vexLength e
  | .vpmovsxbdXmm e => vexLength e
  | .vpmovsxbqXmm e => vexLength e
  | .vpmovsxwdXmm e => vexLength e
  | .vpmovsxwqXmm e => vexLength e
  | .vpmovsxdqXmm e => vexLength e
  | .vpmovsxbwYmm e => vexLength e
  | .vpmovsxbdYmm e => vexLength e
  | .vpmovsxbqYmm e => vexLength e
  | .vpmovsxwdYmm e => vexLength e
  | .vpmovsxwqYmm e => vexLength e
  | .vpmovsxdqYmm e => vexLength e

/-- An extension bit: it counts in `M64` alone; in `M32` R = X = B = 0 (R63, R73, R75). -/
def extBit (mode : Mode) (bit : Bool) : Bool :=
  mode == .m64 && bit

/-- The destination number, operand 2 and the length of a legacy form in a mode (R75, R76, R83). -/
def legacyForm (mode : Mode) (e : LegacyEnc) : Form where
  dst := regNum (extBit mode (e.rex.any (·.r))) e.reg
  src := srcOf mode e.pfx (extBit mode (e.rex.any (·.x))) (extBit mode (e.rex.any (·.b))) e.rm
  len := legacyLength e

/-- The destination number, operand 2 and the length of a VEX form in a mode (R73, R75, R76, R83). -/
def vexForm (mode : Mode) (e : VexEnc) : Form where
  dst := regNum (extBit mode e.r) e.reg
  src := srcOf mode e.pfx (extBit mode e.x) (extBit mode e.b) e.rm
  len := vexLength e

/-- What decoding an instruction in a mode gives beside its row: destination, operand 2, length (R83). -/
def instrForm (mode : Mode) : Instr → Form
  | .pmovsxbw e => legacyForm mode e
  | .pmovsxbd e => legacyForm mode e
  | .pmovsxbq e => legacyForm mode e
  | .pmovsxwd e => legacyForm mode e
  | .pmovsxwq e => legacyForm mode e
  | .pmovsxdq e => legacyForm mode e
  | .vpmovsxbwXmm e => vexForm mode e
  | .vpmovsxbdXmm e => vexForm mode e
  | .vpmovsxbqXmm e => vexForm mode e
  | .vpmovsxwdXmm e => vexForm mode e
  | .vpmovsxwqXmm e => vexForm mode e
  | .vpmovsxdqXmm e => vexForm mode e
  | .vpmovsxbwYmm e => vexForm mode e
  | .vpmovsxbdYmm e => vexForm mode e
  | .vpmovsxbqYmm e => vexForm mode e
  | .vpmovsxwdYmm e => vexForm mode e
  | .vpmovsxwqYmm e => vexForm mode e
  | .vpmovsxdqYmm e => vexForm mode e

/-! ## Addresses -/

/-- A 64-bit value modulo 2^asz. -/
def truncTo (asz : AddrSize) (v : Word) : Word :=
  match asz with
  | .a16 => (v.setWidth 16).setWidth 64
  | .a32 => (v.setWidth 32).setWidth 64
  | .a64 => v

/-- The bits `asz-1:0` of a general register, or 0 where there is none (20_memory.md R49). -/
def addrReg (s : State) (asz : AddrSize) : Option GReg → Word
  | none => 0
  | some r => truncTo asz s.gpr[r]

/-- The next instruction's address: `pc + len` modulo 2^64 in `M64`, modulo 2^32 in `M32` (10_state.md R27). -/
def nextPc (mode : Mode) (pc : Word) (len : Nat) : Word :=
  match mode with
  | .m64 => pc + BitVec.ofNat 64 len
  | _ => ((pc + BitVec.ofNat 64 len).setWidth 32).setWidth 64

/-- The effective address `(B + I * scale + disp + P) mod 2^asz` (20_memory.md R49). -/
def effectiveAddr (s : State) (o : MemOp) (len : Nat) : Word :=
  truncTo o.asz
    (addrReg s o.asz o.base + addrReg s o.asz o.index * BitVec.ofNat 64 o.scale + BitVec.ofInt 64 o.disp
      + (if o.riprel then nextPc s.cfg.mode s.pc len else 0))

/-- The base of a segment (10_state.md R32). -/
def segBaseOf (b : SegBases) : Seg → Word
  | .cs => b.cs
  | .ss => b.ss
  | .ds => b.ds
  | .es => b.es
  | .fs => b.fs
  | .gs => b.gs

/-- The linear address: in `M64` only the bases of FS and GS count; in `M32` the sum is reduced modulo 2^32
(20_memory.md R50). -/
def linearAddr (s : State) (seg : Seg) (ea : Word) : Word :=
  match s.cfg.mode, seg with
  | .m64, .fs => s.segBase.fs + ea
  | .m64, .gs => s.segBase.gs + ea
  | .m64, _ => ea
  | _, g => ((segBaseOf s.segBase g + ea).setWidth 32).setWidth 64

/-- How many bits a linear address has (10_state.md R33). -/
def linearBits : Mode → Nat
  | .m64 => 64
  | _ => 32

/-- The next `pc` wraps: `pc + len` is no address of the mode's space (10_state.md R27, decision D22). -/
def pcWraps (mode : Mode) (pc : Word) (len : Nat) : Bool :=
  decide (2 ^ linearBits mode ≤ pc.toNat + len)

/-- The operand runs over the end of the effective-address or the linear space (20_memory.md R50). -/
def operandWraps (mode : Mode) (asz : AddrSize) (ea lin : Word) (nbytes : Nat) : Bool :=
  decide (2 ^ asz.bits < ea.toNat + nbytes) || decide (2 ^ linearBits mode < lin.toNat + nbytes)

/-! ## Lanes -/

/-- One element: the `sw` bits of the source from bit `sw * i`, sign-extended to `dw` bits (R11, R16). -/
def lane (sw dw : Nat) (src : Xmm) (i : Nat) : BitVec dw :=
  (src.extractLsb' (sw * i) sw).signExtend dw

/-- `PSX(s, d, n, src)` (R16) in a 256-bit register: element `i` of the result, bits `d*i + d-1 : d*i`, is element `i`
of the source sign-extended; the bits above the last element are 0. -/
def psx (sw dw : Nat) : Nat → Xmm → Vec
  | 0, _ => 0
  | n + 1, src => psx sw dw n src ||| ((lane sw dw src n).setWidth 256 <<< (dw * n))

end Sys2Proof.Machine
end

