-- ==== Sys2Proof/Machine/Ops.lean ====
section
/-! DEFINITION. The named operations over memory and registers, the fault oracle, raising an exception, and the three
execution skeletons R90, R100 and R110. -/

namespace Sys2Proof.Machine

open Sys2Proof

/-! ## Outcomes -/

/-- Go on with the value of an operation that did not stop. -/
def andThen {α β : Type} (o : Host.Outcome α Fault Refusal) (f : α → Host.Outcome β Fault Refusal) :
    Host.Outcome β Fault Refusal :=
  match o with
  | .next a => f a
  | .fault e => .fault e
  | .refused r => .refused r

/-- Taking an exception: the run ends with `Fault(name, code)` and nothing is written; no handler is entered and so
none returns (00_scope.md R14, 60_exceptions.md R132, R133, R135). -/
def raise {α : Type} (e : Fault) : Host.Outcome α Fault Refusal :=
  .fault e

/-- The vector number of an exception (60_exceptions.md R120). -/
def vectorOf : Fault → Nat
  | .ud => 6
  | .nm => 7
  | .ss => 12
  | .gp => 13
  | .pf _ => 14
  | .ac => 17

/-- The error code of an exception, where it has one (60_exceptions.md R120). -/
def errorCodeOf : Fault → Option (BitVec 32)
  | .ud => none
  | .nm => none
  | .ss => some 0
  | .gp => some 0
  | .pf code => some code
  | .ac => some 0

/-! ## Memory -/

/-- The byte at an address (10_state.md R33); an address that is not listed reads as `unlistedByte`. -/
def Memory.read : Memory → Nat → Byte
  | [], _ => unlistedByte
  | (a, b) :: m, x => if x = a then b else Memory.read m x

/-- Put a byte at an address, keeping the canonical form. Only a launch does this: no form stores (00_scope.md R13). -/
def Memory.write : Memory → Nat → Byte → Memory
  | [], x, v => if v = unlistedByte then [] else [(x, v)]
  | (a, b) :: m, x, v =>
    if x < a then (if v = unlistedByte then (a, b) :: m else (x, v) :: (a, b) :: m)
    else if x = a then (if v = unlistedByte then m else (x, v) :: m)
    else (a, b) :: Memory.write m x v

/-- The value of the `n` bytes from a linear address, the lowest address least significant (20_memory.md R40). -/
def readLE (m : Memory) (lin : Nat) : Nat → Xmm
  | 0 => 0
  | n + 1 => readLE m lin n ||| ((Memory.read m (lin + n)).setWidth 128 <<< (8 * n))

/-! ## The fault oracle -/

/-- A rule of the oracle applies: its kind, segment and privilege level are the access's, and the access touches its
range (for a rule that admits: lies within it). -/
def ruleApplies (r : CheckRule) (a : Access) : Bool :=
  r.kind.all (· == a.kind) && r.seg.all (· == a.seg) && r.cpl.all (· == a.cpl) &&
    (if r.verdict = .ok then decide (r.first ≤ a.lin.toNat) && decide (a.lin.toNat + a.nbytes ≤ r.last + 1)
     else decide (a.lin.toNat ≤ r.last) && decide (r.first < a.lin.toNat + a.nbytes))

/-- What the oracle answers: its first rule that applies, else its answer for the rest (20_memory.md R52). -/
def oracleVerdict (m : MemCheck) (a : Access) : Verdict :=
  match m.rules.find? fun r => ruleApplies r a with
  | some r => r.verdict
  | none =>
    match m.rest with
    | none => .ok
    | some k => Config.memCheckRest k a

/-- Bits 63 to LAW-1 of an address are all equal (20_memory.md R51). -/
def canonical (law : Nat) (a : Word) : Bool :=
  a.sshiftRight (law - 1) == 0 || a.sshiftRight (law - 1) == BitVec.allOnes 64

/-- Every byte of an access is at a canonical address (20_memory.md R51). -/
def allCanonical (law : Nat) (lin : Word) : Nat → Bool
  | 0 => true
  | n + 1 => allCanonical law lin n && canonical law (lin + BitVec.ofNat 64 n)

/-- #SS(0) for an access through SS, #GP(0) for one through another segment (60_exceptions.md R127). -/
def protectionFault : Seg → Fault
  | .ss => .ss
  | _ => .gp

/-- `MemCheck` (20_memory.md R52, R127): the canonical check of `M64` (R51) and the oracle. Where both fault, either may
be reported (R46, decision D18: a free value, log 10). -/
def memCheck (s : State) (a : Access) : Option Fault :=
  match s.cfg.mode == .m64 && !allCanonical s.cfg.law a.lin a.nbytes, oracleVerdict s.cfg.memCheck a with
  | false, .ok => none
  | false, .protection => some (protectionFault a.seg)
  | false, .page code => some (.pf code)
  | true, .page code =>
    if Config.protectionBeforePage s.steps then some (protectionFault a.seg) else some (.pf code)
  | true, _ => some (protectionFault a.seg)

/-- The alignment check (60_exceptions.md R128, decision D26): 2, 4 and 8-byte operands raise when misaligned; for a
misaligned 16-byte operand the outcome is a free value (log 9). -/
def alignmentFaults (s : State) (lin : Word) (nbytes : Nat) : Bool :=
  s.alignmentChecking && lin.toNat % nbytes != 0 &&
    (if nbytes = 16 then Config.misaligned16Raises s.steps else true)

/-- The operand touches device memory (20_memory.md R42). -/
def inDevice (devices : List Region) (lin : Word) (nbytes : Nat) : Bool :=
  devices.any fun d => decide (lin.toNat ≤ d.last) && decide (d.first < lin.toNat + nbytes)

/-- The arguments of `MemCheck` for operand 2. -/
def dataAccess (s : State) (seg : Seg) (ea : Word) (nbytes : Nat) : Access where
  kind := .data
  seg := seg
  ea := ea
  lin := linearAddr s seg ea
  nbytes := nbytes
  cpl := s.cpl

/-- The exception a memory operand raises, if any: `MemCheck`'s or #AC(0); where both raise, either may be reported
(20_memory.md R52, 60_exceptions.md R131, decision D18: a free value, log 10). -/
def operandFault (s : State) (a : Access) : Option Fault :=
  match memCheck s a, alignmentFaults s a.lin a.nbytes with
  | none, false => none
  | some e, false => some e
  | none, true => some .ac
  | some e, true => if Config.alignmentBeforeMemCheck s.steps then some .ac else some e

/-- `MemRead(seg, ea, n)` (00_scope.md R13, 20_memory.md R52): an operand that wraps is refused, one that a check forbids
raises, one in device memory is refused, and any other is read. -/
def memRead (s : State) (asz : AddrSize) (seg : Seg) (ea : Word) (nbytes : Nat) :
    Host.Outcome Xmm Fault Refusal :=
  let a := dataAccess s seg ea nbytes
  if operandWraps s.cfg.mode asz ea a.lin nbytes then .refused .operandWraps
  else match operandFault s a with
    | some e => raise e
    | none =>
      if inDevice s.cfg.devices a.lin nbytes then .refused .deviceMemory
      else .next (readLE s.mem a.lin.toNat nbytes)

/-! ## Registers -/

/-- `VLMAX` (00_scope.md R7). -/
def vlmax (c : Config) : Nat :=
  if c.hasAvx then 256 else 128

/-- `NVREG` (00_scope.md R8). -/
def nvreg : Mode → Nat
  | .m64 => 16
  | _ => 8

/-- A vector register, all 256 bits of its storage. -/
def State.readV (s : State) (i : VReg) : Vec :=
  s.vreg[i]

/-- The XMM view of a vector register, bits 127:0 (10_state.md R20). -/
def State.readXmm (s : State) (i : VReg) : Xmm :=
  (s.readV i).setWidth 128

/-- A vector register as the spec has it, its `VLMAX` bits (10_state.md R20), zero-extended. -/
def State.regV (s : State) (i : VReg) : Vec :=
  if s.cfg.hasAvx then s.readV i else (s.readXmm i).setWidth 256

/-- Write a vector register. -/
def State.setV (s : State) (i : VReg) (v : Vec) : State :=
  { s with vreg := s.vreg.set i v }

/-- Write the instruction pointer. -/
def State.setPc (s : State) (pc : Word) : State :=
  { s with pc := pc }

/-- Count a completed instruction; the next free values are read at the new index (log 11). -/
def State.countStep (s : State) : State :=
  { s with steps := s.steps + 1 }

/-- `pc <- pc + len` (10_state.md R27). -/
def State.advance (s : State) (len : Nat) : State :=
  s.setPc (nextPc s.cfg.mode s.pc len)

/-! ## Execution skeletons -/

/-- Step 2 of R90, R100 and R110: the low `nbytes` bytes of the source register's XMM view, or `nbytes` bytes of memory. -/
def readSource (s : State) (f : Form) (nbytes : Nat) : Host.Outcome Xmm Fault Refusal :=
  match f.src with
  | .reg m => .next (((s.readXmm m).setWidth (8 * nbytes)).setWidth 128)
  | .mem o => memRead s o.asz o.seg (effectiveAddr s o f.len) nbytes

/-- Steps 3 and 4: the destination, then `pc`; the step is counted. -/
def complete (s : State) (f : Form) (v : Vec) : State :=
  ((s.setV f.dst v).advance f.len).countStep

/-- The end of a form that has raised nothing: it completes, or is refused where `pc` would wrap (10_state.md R27, U21,
log 12). -/
def finish (s : State) (f : Form) (v : Vec) : Host.Outcome State Fault Refusal :=
  if pcWraps s.cfg.mode s.pc f.len then .refused .pcWraps else .next (complete s f v)

/-- The skeleton the three groups share, in the order of 60_exceptions.md R131: the #UD and #NM checks, the mode
(D2, log 21), the source, the destination and `pc`. `result` is what the destination becomes, from the source value. -/
def runForm (undefinedOpcode : Bool) (f : Form) (nbytes : Nat) (result : Xmm → Vec) (s : State) :
    Host.Outcome State Fault Refusal :=
  match checkEnabled undefinedOpcode s with
  | some e => raise e
  | none =>
    if s.cfg.mode = .other then .refused .modeOutsideSpec
    else andThen (readSource s f nbytes) fun src => finish s f (result src)

/-- R90, a legacy form with element widths `sw` and `dw`: bits 127:0 become `PSX`, bits 255:128 stay. -/
def execLegacy (sw dw : Nat) (e : LegacyEnc) (s : State) : Host.Outcome State Fault Refusal :=
  let f := legacyForm s.cfg.mode e
  runForm s.legacyUndefined f (128 / dw * sw / 8)
    (fun src => (s.readV f.dst).extractLsb' 128 128 ++ (psx sw dw (128 / dw) src).setWidth 128) s

/-- R100, a VEX.128 form: bits 127:0 become `PSX`, bits 255:128 become 0. -/
def execVex128 (sw dw : Nat) (e : VexEnc) (s : State) : Host.Outcome State Fault Refusal :=
  runForm s.vex128Undefined (vexForm s.cfg.mode e) (128 / dw * sw / 8)
    (fun src => 0#128 ++ (psx sw dw (128 / dw) src).setWidth 128) s

/-- R110, a VEX.256 form: bits 255:0 become `PSX` of twice as many elements. -/
def execVex256 (sw dw : Nat) (e : VexEnc) (s : State) : Host.Outcome State Fault Refusal :=
  runForm s.vex256Undefined (vexForm s.cfg.mode e) (256 / dw * sw / 8)
    (fun src => psx sw dw (256 / dw) src) s

end Sys2Proof.Machine
end

