-- ==== Sys2Proof/Machine/Legacy.lean ====
section
/-! DEFINITION. The six legacy SSE forms (40_pmovsx_legacy_sse.md R91 to R96). -/

namespace Sys2Proof.Machine

open Sys2Proof

/-- PMOVSXBW xmm1, xmm2/m64 (R91): 8 elements of 8 bits, sign-extended to 16 bits. -/
def execPmovsxbw (e : LegacyEnc) (s : State) : Host.Outcome State Fault Refusal :=
  execLegacy 8 16 e s

/-- PMOVSXBD xmm1, xmm2/m32 (R92): 4 elements of 8 bits, sign-extended to 32 bits. -/
def execPmovsxbd (e : LegacyEnc) (s : State) : Host.Outcome State Fault Refusal :=
  execLegacy 8 32 e s

/-- PMOVSXBQ xmm1, xmm2/m16 (R93): 2 elements of 8 bits, sign-extended to 64 bits. -/
def execPmovsxbq (e : LegacyEnc) (s : State) : Host.Outcome State Fault Refusal :=
  execLegacy 8 64 e s

/-- PMOVSXWD xmm1, xmm2/m64 (R94): 4 elements of 16 bits, sign-extended to 32 bits. -/
def execPmovsxwd (e : LegacyEnc) (s : State) : Host.Outcome State Fault Refusal :=
  execLegacy 16 32 e s

/-- PMOVSXWQ xmm1, xmm2/m32 (R95): 2 elements of 16 bits, sign-extended to 64 bits. -/
def execPmovsxwq (e : LegacyEnc) (s : State) : Host.Outcome State Fault Refusal :=
  execLegacy 16 64 e s

/-- PMOVSXDQ xmm1, xmm2/m64 (R96): 2 elements of 32 bits, sign-extended to 64 bits. -/
def execPmovsxdq (e : LegacyEnc) (s : State) : Host.Outcome State Fault Refusal :=
  execLegacy 32 64 e s

end Sys2Proof.Machine
end

