-- ==== Sys2Proof/Machine/Vex128.lean ====
section
/-! DEFINITION. The six VEX.128 forms (41_vpmovsx_vex128.md R101 to R106). -/

namespace Sys2Proof.Machine

open Sys2Proof

/-- VPMOVSXBW xmm1, xmm2/m64 (R101): 8 elements of 8 bits, sign-extended to 16 bits. -/
def execVpmovsxbwXmm (e : VexEnc) (s : State) : Host.Outcome State Fault Refusal :=
  execVex128 8 16 e s

/-- VPMOVSXBD xmm1, xmm2/m32 (R102): 4 elements of 8 bits, sign-extended to 32 bits. -/
def execVpmovsxbdXmm (e : VexEnc) (s : State) : Host.Outcome State Fault Refusal :=
  execVex128 8 32 e s

/-- VPMOVSXBQ xmm1, xmm2/m16 (R103): 2 elements of 8 bits, sign-extended to 64 bits. -/
def execVpmovsxbqXmm (e : VexEnc) (s : State) : Host.Outcome State Fault Refusal :=
  execVex128 8 64 e s

/-- VPMOVSXWD xmm1, xmm2/m64 (R104): 4 elements of 16 bits, sign-extended to 32 bits. -/
def execVpmovsxwdXmm (e : VexEnc) (s : State) : Host.Outcome State Fault Refusal :=
  execVex128 16 32 e s

/-- VPMOVSXWQ xmm1, xmm2/m32 (R105): 2 elements of 16 bits, sign-extended to 64 bits. -/
def execVpmovsxwqXmm (e : VexEnc) (s : State) : Host.Outcome State Fault Refusal :=
  execVex128 16 64 e s

/-- VPMOVSXDQ xmm1, xmm2/m64 (R106): 2 elements of 32 bits, sign-extended to 64 bits. -/
def execVpmovsxdqXmm (e : VexEnc) (s : State) : Host.Outcome State Fault Refusal :=
  execVex128 32 64 e s

end Sys2Proof.Machine
end

