-- ==== Sys2Proof/Machine/Vex256.lean ====
section
/-! DEFINITION. The six VEX.256 forms (42_vpmovsx_vex256.md R111 to R116). -/

namespace Sys2Proof.Machine

open Sys2Proof

/-- VPMOVSXBW ymm1, xmm2/m128 (R111): 16 elements of 8 bits, sign-extended to 16 bits. -/
def execVpmovsxbwYmm (e : VexEnc) (s : State) : Host.Outcome State Fault Refusal :=
  execVex256 8 16 e s

/-- VPMOVSXBD ymm1, xmm2/m64 (R112): 8 elements of 8 bits, sign-extended to 32 bits. -/
def execVpmovsxbdYmm (e : VexEnc) (s : State) : Host.Outcome State Fault Refusal :=
  execVex256 8 32 e s

/-- VPMOVSXBQ ymm1, xmm2/m32 (R113): 4 elements of 8 bits, sign-extended to 64 bits. -/
def execVpmovsxbqYmm (e : VexEnc) (s : State) : Host.Outcome State Fault Refusal :=
  execVex256 8 64 e s

/-- VPMOVSXWD ymm1, xmm2/m128 (R114): 8 elements of 16 bits, sign-extended to 32 bits. -/
def execVpmovsxwdYmm (e : VexEnc) (s : State) : Host.Outcome State Fault Refusal :=
  execVex256 16 32 e s

/-- VPMOVSXWQ ymm1, xmm2/m64 (R115): 4 elements of 16 bits, sign-extended to 64 bits. -/
def execVpmovsxwqYmm (e : VexEnc) (s : State) : Host.Outcome State Fault Refusal :=
  execVex256 16 64 e s

/-- VPMOVSXDQ ymm1, xmm2/m128 (R116): 4 elements of 32 bits, sign-extended to 64 bits. -/
def execVpmovsxdqYmm (e : VexEnc) (s : State) : Host.Outcome State Fault Refusal :=
  execVex256 32 64 e s

end Sys2Proof.Machine
end

