-- ==== Sys2Proof/Machine/Dispatch.lean ====
section
/-! DEFINITION. What each instruction does: one arm per constructor, one direct call of its meaning. -/

namespace Sys2Proof.Machine

open Sys2Proof

def exec (i : Instr) (s : State) : Host.Outcome State Fault Refusal :=
  match i with
  | .pmovsxbw e => Sys2Proof.Machine.execPmovsxbw e s
  | .pmovsxbd e => Sys2Proof.Machine.execPmovsxbd e s
  | .pmovsxbq e => Sys2Proof.Machine.execPmovsxbq e s
  | .pmovsxwd e => Sys2Proof.Machine.execPmovsxwd e s
  | .pmovsxwq e => Sys2Proof.Machine.execPmovsxwq e s
  | .pmovsxdq e => Sys2Proof.Machine.execPmovsxdq e s
  | .vpmovsxbwXmm e => Sys2Proof.Machine.execVpmovsxbwXmm e s
  | .vpmovsxbdXmm e => Sys2Proof.Machine.execVpmovsxbdXmm e s
  | .vpmovsxbqXmm e => Sys2Proof.Machine.execVpmovsxbqXmm e s
  | .vpmovsxwdXmm e => Sys2Proof.Machine.execVpmovsxwdXmm e s
  | .vpmovsxwqXmm e => Sys2Proof.Machine.execVpmovsxwqXmm e s
  | .vpmovsxdqXmm e => Sys2Proof.Machine.execVpmovsxdqXmm e s
  | .vpmovsxbwYmm e => Sys2Proof.Machine.execVpmovsxbwYmm e s
  | .vpmovsxbdYmm e => Sys2Proof.Machine.execVpmovsxbdYmm e s
  | .vpmovsxbqYmm e => Sys2Proof.Machine.execVpmovsxbqYmm e s
  | .vpmovsxwdYmm e => Sys2Proof.Machine.execVpmovsxwdYmm e s
  | .vpmovsxwqYmm e => Sys2Proof.Machine.execVpmovsxwqYmm e s
  | .vpmovsxdqYmm e => Sys2Proof.Machine.execVpmovsxdqYmm e s

end Sys2Proof.Machine
end

