-- ==== Sys2Proof/Machine/Fetch.lean ====
section
/-! DEFINITION. Fetching an instruction (20_memory.md R45, R58, 30_encoding.md R83), what ends a run before a fetch, and
the launch by the environment (70_reset_and_hazards.md R150, R152, R158). -/

namespace Sys2Proof.Machine

open Sys2Proof

/-- The exception the fetch of the byte at `a` raises: instruction bytes come through CS, one byte at a time
(20_memory.md R45, log 15). -/
def fetchFault (s : State) (a : Word) : Option Fault :=
  memCheck s { kind := .fetch, seg := .cs, ea := a, lin := a, nbytes := 1, cpl := s.cpl }

/-- The bytes from address `a` upward, at most `n` of them, and what stops the fetch short of that: the fault of a byte
that may not be fetched, or a refusal at the top of the address space (10_state.md R27, U21, log 12). -/
def fetchFrom (s : State) : Nat → Word → List Byte × Host.Outcome Unit Fault Refusal
  | 0, _ => ([], .next ())
  | n + 1, a =>
    match fetchFault s a with
    | some e => ([], raise e)
    | none =>
      let r := if pcWraps s.cfg.mode a 1 then ([], .refused .pcWraps) else fetchFrom s n (a + 1)
      (Memory.read s.mem a.toNat :: r.1, r.2)

/-- The bytes from `pc` upward, at most 15 of them (decision D14, R76), and what stops the fetch short of that. -/
def fetchWindow (s : State) : List Byte × Host.Outcome Unit Fault Refusal :=
  fetchFrom s 15 s.pc

/-- Step 0 of 60_exceptions.md R131: fetch and decode. A byte that cannot be fetched stops the step only where the decoder
needs it (log 15); what the decoder refuses is refused naming the bytes (30_encoding.md R80). -/
def fetchInstr (s : State) : Host.Outcome Instr Fault Refusal :=
  match decode s.cfg.mode (fetchWindow s).1 with
  | .ok i _ => .next i
  | .undefinedOpcode => raise .ud
  | .refused why => .refused (.undecoded why (fetchWindow s).1)
  | .truncated =>
    andThen (fetchWindow s).2 fun _ => .refused (.undecoded .needsMoreBytes (fetchWindow s).1)

/-- The run is final: `pc` is `END` (70_reset_and_hazards.md R153). -/
def atEnd (s : State) : Bool :=
  s.cfg.endPc == some s.pc

/-- What a step answers without fetching: a refusal where a debug feature is armed (60_exceptions.md R145, U25) or the
mode is outside the spec (00_scope.md R5), and the state itself where the run is final (R153, log 16). -/
def beforeFetch (s : State) : Option (Host.Outcome State Fault Refusal) :=
  if s.cfg.debugArmed then some (.refused .debugArmed)
  else if s.cfg.mode = .other then some (.refused .modeOutsideSpec)
  else if atEnd s then some (.next s)
  else none

/-! ## The launch -/

/-- Put bytes into memory from address `a` upward, modulo the width of an address. -/
def storeBytes (mode : Mode) : Memory → Word → List Byte → Memory
  | m, _, [] => m
  | m, a, b :: bs => storeBytes mode (Memory.write m a.toNat b) (nextPc mode a 1) bs

/-- Replace the bits of `w` under `mask` by those of `v`. -/
def putBits (w mask v : Word) : Word :=
  (w &&& ~~~mask) ||| (v &&& mask)

/-- A rule that lets every byte be fetched. -/
def fetchAnywhere : CheckRule where
  kind := some .fetch
  seg := none
  cpl := none
  first := 0
  last := 2 ^ 64 - 1
  verdict := .ok

/-- The configuration of a launch: a mode of the spec, no end, no debug feature, every byte fetchable. -/
def launchConfig (c : Config) : Config :=
  { c with
    mode := if c.mode = .other then .m64 else c.mode
    endPc := none
    debugArmed := false
    memCheck := { c.memCheck with rules := fetchAnywhere :: c.memCheck.rules } }

/-- What software and the environment have done before the family is usable (70_reset_and_hazards.md R152): the mode,
CR0.EM = 0, CR0.TS = 0, CR4.OSFXSR = 1, CR4.OSXSAVE = 1, XCR0 bits 2:1 = 11b. -/
def launch (s : State) : State :=
  { s with
    cfg := launchConfig s.cfg
    cr0 := putBits s.cr0 0xC 0
    cr4 := putBits s.cr4 0x40200 0x40200
    xcr0 := putBits s.xcr0 0x6 0x6 }

/-- The launch with an instruction of the opcode table at `pc`. -/
def launchWithWord (s : State) (nbits w : Nat) : State :=
  let t := launch s
  { t with mem := storeBytes t.cfg.mode t.mem t.pc (tableBytes nbits w) }

end Sys2Proof.Machine
end

