-- ==== Sys2Proof/Machine/Step.lean ====
section
/-! DEFINITION. One step of the machine (60_exceptions.md R131). -/

namespace Sys2Proof.Machine

open Sys2Proof

/-- One step: the run may be over or outside the spec; else an instruction is fetched, decoded and executed. -/
def step (s : State) : Host.Outcome State Fault Refusal :=
  match beforeFetch s with
  | some o => o
  | none => andThen (fetchInstr s) fun i => exec i s

/-- `s` launched by the environment with the table word `w` at `pc`: see log 5. -/
def State.withFetchWord (s : State) (nbits w : Nat) : State :=
  launchWithWord s nbits w

end Sys2Proof.Machine
end

