-- ==== Sys2Proof/Machine/Run.lean ====
section
/-! DEFINITION. A run and its four outcomes (70_reset_and_hazards.md R153). -/

namespace Sys2Proof.Machine

open Sys2Proof

/-- How a run ends (R153, decision D23): final at `END` with the whole state, a fault, a refusal, or out of fuel. -/
inductive RunResult where
  | final (s : State)
  | fault (e : Fault)
  | refused (r : Refusal)
  | outOfFuel (s : State)
deriving DecidableEq, Repr

/-- The state is one whose run is over with success: `pc = END`, in a launch the spec describes. -/
def isFinal (s : State) : Bool :=
  !s.cfg.debugArmed && s.cfg.mode != .other && atEnd s

/-- A run of at most `fuel` steps. -/
def run : Nat → State → RunResult
  | 0, s => if isFinal s then .final s else .outOfFuel s
  | fuel + 1, s =>
    if isFinal s then .final s
    else match step s with
      | .next t => run fuel t
      | .fault e => .fault e
      | .refused r => .refused r

end Sys2Proof.Machine
end

