-- ==== Sys2Proof/Safety.lean ====
section
/-! DEFINITION. What counts as a safe run, in the terms the statements use: the preconditions of 70_reset_and_hazards.md
R152, an operand that can be read, the invariant of a state, and what a step may change. -/

namespace Sys2Proof.Machine

open Sys2Proof

/-! ## The rows of the table -/

/-- The three groups of forms (00_scope.md R1). -/
inductive Group where
  | legacy
  | vex128
  | vex256
deriving DecidableEq, Repr

/-- The group of an instruction (30_encoding.md R77). -/
def groupOf : Instr → Group
  | .pmovsxbw _ => .legacy
  | .pmovsxbd _ => .legacy
  | .pmovsxbq _ => .legacy
  | .pmovsxwd _ => .legacy
  | .pmovsxwq _ => .legacy
  | .pmovsxdq _ => .legacy
  | .vpmovsxbwXmm _ => .vex128
  | .vpmovsxbdXmm _ => .vex128
  | .vpmovsxbqXmm _ => .vex128
  | .vpmovsxwdXmm _ => .vex128
  | .vpmovsxwqXmm _ => .vex128
  | .vpmovsxdqXmm _ => .vex128
  | .vpmovsxbwYmm _ => .vex256
  | .vpmovsxbdYmm _ => .vex256
  | .vpmovsxbqYmm _ => .vex256
  | .vpmovsxwdYmm _ => .vex256
  | .vpmovsxwqYmm _ => .vex256
  | .vpmovsxdqYmm _ => .vex256

/-- What a row says of its elements: source bits, destination bits, how many, and the bytes of a memory operand. -/
structure Shape where
  srcBits : Nat
  dstBits : Nat
  count : Nat
  nbytes : Nat
deriving DecidableEq, Repr

/-- The elements of an instruction, number for number from opcode_table.json (00_scope.md R16, 20_memory.md R41). -/
def shapeOf : Instr → Shape
  | .pmovsxbw _ => ⟨8, 16, 8, 8⟩
  | .pmovsxbd _ => ⟨8, 32, 4, 4⟩
  | .pmovsxbq _ => ⟨8, 64, 2, 2⟩
  | .pmovsxwd _ => ⟨16, 32, 4, 8⟩
  | .pmovsxwq _ => ⟨16, 64, 2, 4⟩
  | .pmovsxdq _ => ⟨32, 64, 2, 8⟩
  | .vpmovsxbwXmm _ => ⟨8, 16, 8, 8⟩
  | .vpmovsxbdXmm _ => ⟨8, 32, 4, 4⟩
  | .vpmovsxbqXmm _ => ⟨8, 64, 2, 2⟩
  | .vpmovsxwdXmm _ => ⟨16, 32, 4, 8⟩
  | .vpmovsxwqXmm _ => ⟨16, 64, 2, 4⟩
  | .vpmovsxdqXmm _ => ⟨32, 64, 2, 8⟩
  | .vpmovsxbwYmm _ => ⟨8, 16, 16, 16⟩
  | .vpmovsxbdYmm _ => ⟨8, 32, 8, 8⟩
  | .vpmovsxbqYmm _ => ⟨8, 64, 4, 4⟩
  | .vpmovsxwdYmm _ => ⟨16, 32, 8, 16⟩
  | .vpmovsxwqYmm _ => ⟨16, 64, 4, 8⟩
  | .vpmovsxdqYmm _ => ⟨32, 64, 4, 16⟩

/-- The prefix bytes of an instruction, in order (30_encoding.md R62). -/
def prefixesOf : Instr → List Pfx
  | .pmovsxbw e => e.pfx
  | .pmovsxbd e => e.pfx
  | .pmovsxbq e => e.pfx
  | .pmovsxwd e => e.pfx
  | .pmovsxwq e => e.pfx
  | .pmovsxdq e => e.pfx
  | .vpmovsxbwXmm e => e.pfx
  | .vpmovsxbdXmm e => e.pfx
  | .vpmovsxbqXmm e => e.pfx
  | .vpmovsxwdXmm e => e.pfx
  | .vpmovsxwqXmm e => e.pfx
  | .vpmovsxdqXmm e => e.pfx
  | .vpmovsxbwYmm e => e.pfx
  | .vpmovsxbdYmm e => e.pfx
  | .vpmovsxbqYmm e => e.pfx
  | .vpmovsxwdYmm e => e.pfx
  | .vpmovsxwqYmm e => e.pfx
  | .vpmovsxdqYmm e => e.pfx

/-- A #UD condition of a group holds (60_exceptions.md R123, R125). -/
def UndefinedCondition (g : Group) (s : State) : Prop :=
  match g with
  | .legacy => s.cfg.hasSse41 = false ∨ s.cr0Em = true ∨ s.cr4Osfxsr = false
  | .vex128 => s.cfg.hasAvx = false ∨ s.cr4Osxsave = false ∨ s.xcr0Sse = false ∨ s.xcr0Avx = false
  | .vex256 => s.cfg.hasAvx2 = false ∨ s.cr4Osxsave = false ∨ s.xcr0Sse = false ∨ s.xcr0Avx = false

/-! ## When a form runs -/

/-- The mode is one the spec describes (R152, first row). -/
def ModeInSpec (s : State) : Prop :=
  s.cfg.mode = .m64 ∨ s.cfg.mode = .m32

/-- "Enabled": the preconditions under which a form of a group runs (R152). -/
def Enabled (g : Group) (s : State) : Prop :=
  ModeInSpec s ∧ s.cr0Ts = false ∧
  match g with
  | .legacy => s.cfg.hasSse41 = true ∧ s.cr0Em = false ∧ s.cr4Osfxsr = true
  | .vex128 => s.cfg.hasAvx = true ∧ s.cr4Osxsave = true ∧ s.xcr0Sse = true ∧ s.xcr0Avx = true
  | .vex256 => s.cfg.hasAvx2 = true ∧ s.cr4Osxsave = true ∧ s.xcr0Sse = true ∧ s.xcr0Avx = true

/-- The destination, operand 2 and the length of an instruction in the mode of a state. -/
abbrev formIn (s : State) (i : Instr) : Form :=
  instrForm s.cfg.mode i

/-- The linear address of a memory operand of an instruction of `len` bytes (20_memory.md R49, R50). -/
def operandAddr (s : State) (o : MemOp) (len : Nat) : Word :=
  linearAddr s o.seg (effectiveAddr s o len)

/-- The operand does not run over the end of the effective-address or the linear space (20_memory.md R50). -/
def OperandInSpace (s : State) (o : MemOp) (len nbytes : Nat) : Prop :=
  (effectiveAddr s o len).toNat + nbytes ≤ 2 ^ o.asz.bits ∧
  (operandAddr s o len).toNat + nbytes ≤ 2 ^ linearBits s.cfg.mode

/-- An instruction of `len` bytes ends below the top of the address space, so that its next `pc` does not wrap
(10_state.md R27, U21). -/
def NextPcInSpace (s : State) (len : Nat) : Prop :=
  s.pc.toNat + len < 2 ^ linearBits s.cfg.mode

/-- What `MemCheck` answers for the operand (20_memory.md R52). -/
def operandCheck (s : State) (o : MemOp) (len nbytes : Nat) : Option Fault :=
  memCheck s (dataAccess s o.seg (effectiveAddr s o len) nbytes)

/-- A memory operand of `nbytes` bytes can be read: it does not wrap (20_memory.md R50), `MemCheck` admits it (R52), the
alignment check does not raise (60_exceptions.md R128) and it is ordinary memory (20_memory.md R42). -/
def OperandReadable (s : State) (o : MemOp) (len nbytes : Nat) : Prop :=
  OperandInSpace s o len nbytes ∧ operandCheck s o len nbytes = none ∧
  (s.alignmentChecking = false ∨ (operandAddr s o len).toNat % nbytes = 0) ∧
  inDevice s.cfg.devices (operandAddr s o len) nbytes = false

/-- `S` is the source value of a form (20_memory.md R40, 10_state.md R21): the low `nbytes` bytes of the source register,
or the bytes at the operand's address, which can be read. -/
def SourceIs (s : State) (f : Form) (nbytes : Nat) (S : Xmm) : Prop :=
  match f.src with
  | .reg m => ∀ i, i < nbytes → S.extractLsb' (8 * i) 8 = (s.readV m).extractLsb' (8 * i) 8
  | .mem o =>
    OperandReadable s o f.len nbytes ∧
    ∀ i, i < nbytes → S.extractLsb' (8 * i) 8 = Memory.read s.mem ((operandAddr s o f.len).toNat + i)

/-- Nothing but the vector registers, `pc` and the model's step count differs (10_state.md R25, R28, R29, R30, R32;
20_memory.md R55). -/
def SameButVectorsAndPc (s t : State) : Prop :=
  t.gpr = s.gpr ∧ t.rflags = s.rflags ∧ t.mxcsr = s.mxcsr ∧ t.cr0 = s.cr0 ∧ t.cr4 = s.cr4 ∧ t.xcr0 = s.xcr0 ∧
  t.cpl = s.cpl ∧ t.segBase = s.segBase ∧ t.mem = s.mem ∧ t.cfg = s.cfg

/-- The frame of a form with destination `r` and length `len`: no other vector register changes, `pc` becomes the next
`pc` (10_state.md R27), and nothing else changes but the model's step count. -/
def FormFrame (s t : State) (r : VReg) (len : Nat) : Prop :=
  SameButVectorsAndPc s t ∧ (∀ q, q ≠ r → t.readV q = s.readV q) ∧ t.pc = nextPc s.cfg.mode s.pc len

/-- Every element of the destination is the element of the source with its number, sign-extended (00_scope.md R11, R16). -/
def Lanes (h : Shape) (S : Xmm) (v : Vec) : Prop :=
  ∀ j, j < h.count →
    v.extractLsb' (h.dstBits * j) h.dstBits = (S.extractLsb' (h.srcBits * j) h.srcBits).signExtend h.dstBits

/-- What becomes of bits 255:128 of the destination: kept by a legacy form, zeroed by a VEX.128 form; a VEX.256 form
writes them as elements (10_state.md R22). -/
def UpperHalf (g : Group) (old new : Vec) : Prop :=
  match g with
  | .legacy => new.extractLsb' 128 128 = old.extractLsb' 128 128
  | .vex128 => new.extractLsb' 128 128 = 0#128
  | .vex256 => True

/-- `i` completes from `s` in `t` with source value `S`: its elements, the upper half, and its frame (R90, R100, R110). -/
def CompletesIn (i : Instr) (s t : State) (S : Xmm) : Prop :=
  exec i s = .next t ∧ Lanes (shapeOf i) S (t.readV (formIn s i).dst) ∧
  UpperHalf (groupOf i) (s.readV (formIn s i).dst) (t.readV (formIn s i).dst) ∧
  FormFrame s t (formIn s i).dst (formIn s i).len

/-- The feature flags are consistent (00_scope.md R6) and the linear-address width is one that exists (20_memory.md R51). -/
def ConfigConsistent (c : Config) : Prop :=
  (c.hasAvx2 = true → c.hasAvx = true) ∧ (c.hasAvx = true → c.hasSse41 = true) ∧ (c.law = 48 ∨ c.law = 57)

/-- What holds of every state of a run: memory is in canonical form, the configuration is consistent, `pc` is a 32-bit
number outside `M64` (10_state.md R26), and without AVX no vector register has bits above 127 (00_scope.md R7). -/
def Inv (s : State) : Prop :=
  Memory.wf s.mem = true ∧ ConfigConsistent s.cfg ∧
  (s.cfg.mode ≠ .m64 → s.pc.toNat < 2 ^ 32) ∧
  (s.cfg.hasAvx = false → ∀ i, (s.readV i).extractLsb' 128 128 = 0#128)

end Sys2Proof.Machine
end

