-- ==== Sys2Proof/Certificates/Slice0/Obligations.lean ====
section
/-! DEFINITION. The statements for the provers, each a proposition about the machine. "Every form" is every instruction,
register-source and memory-source, in every encoding, well-formed or not. -/

open Sys2Proof Sys2Proof.Machine

/-! ## Encoding -/

/-- Every well-formed instruction is read back from its bytes, whatever follows them (30_encoding.md R60 to R73, R83). -/
def Obligations.DecodeOfEncodeIsTheInstruction : Prop :=
  ∀ (mode : Mode) (i : Instr) (rest : List Byte), i.wf mode = true → decode mode (encode i ++ rest) = .ok i rest

/-- What the decoder reads is well-formed and its encoding is the bytes that were read: no bit is dropped, and two byte
sequences never decode to one instruction (R62 to R73, R83). -/
def Obligations.EncodeOfDecodeIsTheBytes : Prop :=
  ∀ (mode : Mode) (bs : List Byte) (i : Instr) (rest : List Byte),
    decode mode bs = .ok i rest → i.wf mode = true ∧ encode i ++ rest = bs

/-- A decoded instruction takes its length from the bytes: 5 to 13 for a legacy form, 5 to 12 for a VEX form (R60, R76). -/
def Obligations.DecodedLengthIsBounded : Prop :=
  ∀ (mode : Mode) (bs : List Byte) (i : Instr) (rest : List Byte),
    decode mode bs = .ok i rest →
      bs.length = (instrForm mode i).len + rest.length ∧ 5 ≤ (instrForm mode i).len ∧
      (instrForm mode i).len ≤ (if groupOf i = .legacy then 13 else 12)

/-- The decoder never runs past 15 bytes (R76, decision D27). -/
def Obligations.FifteenBytesDecideTheDecoder : Prop :=
  ∀ (mode : Mode) (bs : List Byte), 15 ≤ bs.length → decode mode bs ≠ .truncated

/-- A VEX form of the family whose stored `vvvv` bits are not 1111b raises #UD, in both modes, after any admitted
prefixes and before anything that follows the opcode byte is read (60_exceptions.md R121). -/
def Obligations.ReservedVvvvRaisesUndefinedOpcode : Prop :=
  ∀ (s : State) (ps : List Pfx) (vex1 vex2 : Byte) (k : Pair) (rest : List Byte),
    s.cfg.debugArmed = false → ModeInSpec s → s.cfg.endPc ≠ some s.pc → distinctClasses ps = true →
    (s.cfg.mode = .m32 → vex1.extractLsb' 6 2 = 3#2) →
    vex1.extractLsb' 0 5 = 2#5 → vex2.extractLsb' 0 2 = 1#2 → vex2.extractLsb' 3 4 ≠ 15#4 →
    (fetchWindow s).1 = ps.map Pfx.byte ++ (0xC4 :: vex1 :: vex2 :: k.opcode :: rest) →
    step s = .fault .ud

/-- LOCK before a form, and 66, F2, F3 or a REX byte before a VEX form, is #UD (60_exceptions.md R125, 30_encoding.md R62,
R63). -/
def Obligations.ForbiddenPrefixesAreUndefined : Prop :=
  ∀ (mode : Mode) (ps : List Pfx) (k : Pair) (rest : List Byte), mode ≠ .other → distinctClasses ps = true →
    (∀ rex : Option Rex, (mode = .m32 → rex = none) → Pfx.opSize ∈ ps → Pfx.lock ∈ ps → Pfx.rep ∉ ps → Pfx.repne ∉ ps →
      decode mode (ps.map Pfx.byte ++ ((rex.map Rex.byte).toList ++ (0x0F :: 0x38 :: k.opcode :: rest))) =
        .undefinedOpcode) ∧
    (∀ (rex : Option Rex) (l : Bool) (e : VexEnc), (mode = .m32 → rex = none ∧ e.r = false ∧ e.x = false) →
      (rex.isSome = true ∨ Pfx.opSize ∈ ps ∨ Pfx.lock ∈ ps ∨ Pfx.rep ∈ ps ∨ Pfx.repne ∈ ps) →
      decode mode (ps.map Pfx.byte ++ ((rex.map Rex.byte).toList ++ (0xC4 :: e.vex1 :: e.vex2 l :: k.opcode :: rest))) =
        .undefinedOpcode)

/-- The sequences that the prefix grammar does not admit are refused and are not #UD: a repeated prefix class, F2 or F3 before
a legacy form, a legacy form without 66, and in `M64` a REX byte that stands neither before 0F nor before C4; a REX byte may
stand between the prefixes and 0F in each case (30_encoding.md R61 to R63, R80). F0 beside one of them changes nothing: log
22. -/
def Obligations.SequencesOutsideTheGrammarAreRefused : Prop :=
  ∀ (mode : Mode) (ps : List Pfx) (rest : List Byte), mode ≠ .other → distinctClasses ps = true →
    (∀ p q, q ∈ ps → q.sameClass p = true →
      decode mode (ps.map Pfx.byte ++ (p.byte :: rest)) = .refused .repeatedPrefixClass) ∧
    (∀ (rex : Option Rex) (k : Pair), (mode = .m32 → rex = none) → (Pfx.rep ∈ ps ∨ Pfx.repne ∈ ps) →
      decode mode (ps.map Pfx.byte ++ ((rex.map Rex.byte).toList ++ (0x0F :: 0x38 :: k.opcode :: rest))) =
        .refused .repeatWithLegacyForm) ∧
    (∀ (rex : Option Rex) (k : Pair), (mode = .m32 → rex = none) → Pfx.rep ∉ ps → Pfx.repne ∉ ps → Pfx.opSize ∉ ps →
      decode mode (ps.map Pfx.byte ++ ((rex.map Rex.byte).toList ++ (0x0F :: 0x38 :: k.opcode :: rest))) =
        .refused .noOperandSizePrefix) ∧
    (∀ (rex : Rex) (b : Byte), mode = .m64 → b ≠ 0x0F → b ≠ 0xC4 →
      decode mode (ps.map Pfx.byte ++ (rex.byte :: b :: rest)) = .refused .notInFamily)

/-- After any admitted prefixes and REX byte, what is no form of the family is refused and is not #UD: a first byte other than
0F and C4 (C5h and 62h among them), an escape other than 0F 38, an opcode outside 20h to 25h in either format, and a VEX
prefix with `mmmmm` other than 00010b or `pp` other than 01b (30_encoding.md R80). -/
def Obligations.NeighboursOfTheFamilyAreRefused : Prop :=
  ∀ (mode : Mode) (ps : List Pfx) (rex : Option Rex) (rest : List Byte), mode ≠ .other → distinctClasses ps = true →
    (mode = .m32 → rex = none) →
    (∀ b : Byte, b ≠ 0x0F → b ≠ 0xC4 → prefixOf b = none → (mode = .m64 → isRex b = false) →
      decode mode (ps.map Pfx.byte ++ ((rex.map Rex.byte).toList ++ (b :: rest))) = .refused .notInFamily) ∧
    (∀ b : Byte, b ≠ 0x38 →
      decode mode (ps.map Pfx.byte ++ ((rex.map Rex.byte).toList ++ (0x0F :: b :: rest))) = .refused .notInFamily) ∧
    (∀ op : Byte, (op.toNat < 0x20 ∨ 0x25 < op.toNat) →
      decode mode (ps.map Pfx.byte ++ ((rex.map Rex.byte).toList ++ (0x0F :: 0x38 :: op :: rest))) =
        .refused .notInFamily) ∧
    (∀ vex1 vex2 op : Byte, (mode = .m32 → vex1.extractLsb' 6 2 = 3#2) →
      (vex1.extractLsb' 0 5 ≠ 2#5 ∨ vex2.extractLsb' 0 2 ≠ 1#2 ∨ op.toNat < 0x20 ∨ 0x25 < op.toNat) →
      decode mode (ps.map Pfx.byte ++ ((rex.map Rex.byte).toList ++ (0xC4 :: vex1 :: vex2 :: op :: rest))) =
        .refused .notInFamily)

/-- In `M32` the byte C4h followed by a byte whose bits 7:6 are not 11b is LES and is refused (30_encoding.md R73, R80). -/
def Obligations.LesIsRefusedInM32 : Prop :=
  ∀ (ps : List Pfx) (b : Byte) (rest : List Byte), distinctClasses ps = true → b.extractLsb' 6 2 ≠ 3#2 →
    decode .m32 (ps.map Pfx.byte ++ (0xC4 :: b :: rest)) = .refused .notInFamily

/-- Five words of 30_encoding.md R84 and 95_test_vectors.md, bit by bit, decode to what they stand for. -/
def Obligations.WrittenOutWordsDecode : Prop :=
  decode .m64 [0b01100110, 0b00001111, 0b00111000, 0b00100000, 0b11001000] =
    .ok (.pmovsxbw { pfx := [.opSize], rex := none, reg := 1, rm := ⟨3, 0, none, .none⟩ }) [] ∧
  decode .m64 [0b01100110, 0b01000100, 0b00001111, 0b00111000, 0b00100001, 0b00000000] =
    .ok (.pmovsxbd { pfx := [.opSize], rex := some ⟨false, true, false, false⟩, reg := 0, rm := ⟨0, 0, none, .none⟩ }) [] ∧
  decode .m64 [0b11000100, 0b11100010, 0b01111001, 0b00100010, 0b01011111, 0b11111111] =
    .ok (.vpmovsxbqXmm { pfx := [], r := false, x := false, b := false, w := false, reg := 3, rm := ⟨1, 7, none, .d8 0xFF⟩ })
      [] ∧
  decode .m64 [0b11000100, 0b11100010, 0b01111101, 0b00100000, 0b11000000] =
    .ok (.vpmovsxbwYmm { pfx := [], r := false, x := false, b := false, w := false, reg := 0, rm := ⟨3, 0, none, .none⟩ }) [] ∧
  decode .m32 [0b01100111, 0b01100110, 0b00001111, 0b00111000, 0b00100001, 0b01001000, 0b11111110] =
    .ok (.pmovsxbd { pfx := [.addrSize, .opSize], rex := none, reg := 1, rm := ⟨1, 0, none, .d8 0xFE⟩ }) []

/-- The bits `W` of REX and VEX are ignored by every form (30_encoding.md R63, R72, decision D25). -/
def Obligations.WidthBitIsIgnored : Prop :=
  (∀ (k : Pair) (e : LegacyEnc) (r : Rex) (w : Bool) (s : State),
    exec (legacyInstr k { e with rex := some { r with w := w } }) s = exec (legacyInstr k { e with rex := some r }) s) ∧
  (∀ (l : Bool) (k : Pair) (e : VexEnc) (w : Bool) (s : State),
    exec (vexInstr l k { e with w := w }) s = exec (vexInstr l k e) s)

/-- In `M32` no form names a register above 7, and the stored bit `B'` has no effect (10_state.md R23, 30_encoding.md R73,
R75). -/
def Obligations.M32NamesLowRegistersOnly : Prop :=
  (∀ i : Instr, (instrForm .m32 i).dst < 8 ∧
    match (instrForm .m32 i).src with
    | .reg m => m < 8
    | .mem o => (∀ r, o.base = some r → r < 8) ∧ (∀ r, o.index = some r → r < 8)) ∧
  (∀ (l : Bool) (k : Pair) (e : VexEnc) (b : Bool),
    instrForm .m32 (vexInstr l k { e with b := b }) = instrForm .m32 (vexInstr l k e))

/-! ## Addresses -/

/-- The effective address is `(B + I * scale + disp + P) mod 2^asz`, in integers (20_memory.md R49). -/
def Obligations.EffectiveAddressIsTheSum : Prop :=
  ∀ (s : State) (o : MemOp) (len : Nat),
    let reg (r : Option GReg) : Int :=
      match r with
      | none => 0
      | some g => ((s.gpr[g]).toNat : Int) % 2 ^ o.asz.bits
    ((effectiveAddr s o len).toNat : Int) =
      (reg o.base + reg o.index * o.scale + o.disp + (if o.riprel then ((nextPc s.cfg.mode s.pc len).toNat : Int) else 0))
        % 2 ^ o.asz.bits

/-- The linear address: in `M64` the base of FS or GS, or 0, is added modulo 2^64; in `M32` the segment's base modulo 2^32
(20_memory.md R50). -/
def Obligations.LinearAddressAddsTheSegmentBase : Prop :=
  ∀ (s : State) (g : Seg) (ea : Word),
    (s.cfg.mode = .m64 → (linearAddr s g ea).toNat =
      ((if g = .fs ∨ g = .gs then (segBaseOf s.segBase g).toNat else 0) + ea.toNat) % 2 ^ 64) ∧
    (s.cfg.mode = .m32 → (linearAddr s g ea).toNat = ((segBaseOf s.segBase g).toNat + ea.toNat) % 2 ^ 32)

/-- The segment of a memory operand: SS for base 4 or 5 and DS otherwise, replaced by any override in `M32` and by FS and
GS alone in `M64` (30_encoding.md R70). -/
def Obligations.OperandSegmentFollowsBaseAndOverride : Prop :=
  ∀ (mode : Mode) (i : Instr) (o : MemOp), i.wf mode = true → (instrForm mode i).src = .mem o →
    let dflt := if o.base = some 4 ∨ o.base = some 5 then Seg.ss else Seg.ds
    (∀ g, Pfx.seg g ∈ prefixesOf i → o.seg = if mode = .m32 ∨ g = .fs ∨ g = .gs then g else dflt) ∧
    ((∀ g, Pfx.seg g ∉ prefixesOf i) → o.seg = dflt)

/-! ## What the forms compute -/

/-- The six legacy forms PMOVSXBW, PMOVSXBD, PMOVSXBQ, PMOVSXWD, PMOVSXWQ, PMOVSXDQ complete wherever they are enabled,
their source can be read and the next `pc` does not wrap (log 12): every element sign-extended, bits 255:128 kept, nothing
else changed (40_pmovsx_legacy_sse.md R90 to R97). -/
def Obligations.LegacyFormsComplete : Prop :=
  ∀ (e : LegacyEnc) (s : State) (S : Xmm), Enabled .legacy s →
    ∀ i ∈ [Instr.pmovsxbw e, .pmovsxbd e, .pmovsxbq e, .pmovsxwd e, .pmovsxwq e, .pmovsxdq e],
      SourceIs s (formIn s i) (shapeOf i).nbytes S → NextPcInSpace s (formIn s i).len → ∃ t, CompletesIn i s t S

/-- The six VEX.128 forms complete wherever they are enabled, their source can be read and the next `pc` does not wrap
(log 12): every element sign-extended, bits 255:128 zeroed, nothing else changed (41_vpmovsx_vex128.md R100 to R106). -/
def Obligations.Vex128FormsComplete : Prop :=
  ∀ (e : VexEnc) (s : State) (S : Xmm), Enabled .vex128 s →
    ∀ i ∈ [Instr.vpmovsxbwXmm e, .vpmovsxbdXmm e, .vpmovsxbqXmm e, .vpmovsxwdXmm e, .vpmovsxwqXmm e, .vpmovsxdqXmm e],
      SourceIs s (formIn s i) (shapeOf i).nbytes S → NextPcInSpace s (formIn s i).len → ∃ t, CompletesIn i s t S

/-- The six VEX.256 forms complete wherever they are enabled, their source can be read and the next `pc` does not wrap
(log 12): every element of all 256 bits sign-extended, nothing else changed (42_vpmovsx_vex256.md R110 to R116). -/
def Obligations.Vex256FormsComplete : Prop :=
  ∀ (e : VexEnc) (s : State) (S : Xmm), Enabled .vex256 s →
    ∀ i ∈ [Instr.vpmovsxbwYmm e, .vpmovsxbdYmm e, .vpmovsxbqYmm e, .vpmovsxwdYmm e, .vpmovsxwqYmm e, .vpmovsxdqYmm e],
      SourceIs s (formIn s i) (shapeOf i).nbytes S → NextPcInSpace s (formIn s i).len → ∃ t, CompletesIn i s t S

/-- The arithmetic law: read as two's-complement integers each element of the result is the source element; read as bits,
the low bits are copied and the high bits are copies of the sign bit (40_pmovsx_legacy_sse.md R98). -/
def Obligations.SignExtensionIsExact : Prop :=
  ∀ (i : Instr) (S : Xmm) (j : Nat), j < (shapeOf i).count →
    let h := shapeOf i
    let r := (psx h.srcBits h.dstBits h.count S).extractLsb' (h.dstBits * j) h.dstBits
    let a := S.extractLsb' (h.srcBits * j) h.srcBits
    r.toInt = a.toInt ∧ (∀ b, b < h.srcBits → r.getLsbD b = a.getLsbD b) ∧
    (∀ b, h.srcBits ≤ b → b < h.dstBits → r.getLsbD b = a.getLsbD (h.srcBits - 1))

/-- Widening in two steps is widening at once (40_pmovsx_legacy_sse.md R98; 95_test_vectors.md P1). -/
def Obligations.WideningComposes : Prop :=
  ∀ (a b c n : Nat) (S : Xmm), 0 < a → a ≤ b → b ≤ c → n * b ≤ 128 → n * c ≤ 256 →
    psx b c n ((psx a b n S).setWidth 128) = psx a c n S

/-- On one register source the legacy, the VEX.128 and the VEX.256 form of a pair agree in bits 127:0 of the destination
(10_state.md R22, 70_reset_and_hazards.md R155; 95_test_vectors.md P3). -/
def Obligations.GroupsAgreeOnTheLowHalf : Prop :=
  ∀ (k : Pair) (e : LegacyEnc) (f : VexEnc) (s t u v : State) (m : VReg),
    (formIn s (legacyInstr k e)).src = .reg m → (formIn s (vexInstr false k f)).src = .reg m →
    exec (legacyInstr k e) s = .next t → exec (vexInstr false k f) s = .next u → exec (vexInstr true k f) s = .next v →
    u.readXmm (formIn s (vexInstr false k f)).dst = t.readXmm (formIn s (legacyInstr k e)).dst ∧
    v.readXmm (formIn s (vexInstr true k f)).dst = t.readXmm (formIn s (legacyInstr k e)).dst

/-- Bits 255:128 of the destination after a form: unchanged (legacy), 0 (VEX.128) (10_state.md R22, 70_reset_and_hazards.md
R155). -/
def Obligations.UpperHalfByGroup : Prop :=
  ∀ (i : Instr) (s t : State), exec i s = .next t →
    UpperHalf (groupOf i) (s.readV (formIn s i).dst) (t.readV (formIn s i).dst)

/-! ## What the forms read -/

/-- A register source is read in its low bytes only: two values that agree there give one result (10_state.md R21,
20_memory.md R41). -/
def Obligations.HighSourceBitsDoNotMatter : Prop :=
  ∀ (i : Instr) (s t : State) (m : VReg) (v : Vec), (formIn s i).src = .reg m → m ≠ (formIn s i).dst →
    (∀ j, j < (shapeOf i).nbytes → v.extractLsb' (8 * j) 8 = (s.readV m).extractLsb' (8 * j) 8) →
    exec i s = .next t →
    ∃ t', exec i (s.setV m v) = .next t' ∧ t'.readV (formIn s i).dst = t.readV (formIn s i).dst

/-- A register-source form depends on no memory, oracle, device, general register, flag, privilege level or segment: with
other ones it completes with the same vector registers and the same `pc` (20_memory.md R41, 60_exceptions.md R140). -/
def Obligations.RegisterFormsReadVectorsOnly : Prop :=
  ∀ (i : Instr) (s t s' : State) (m : VReg), (formIn s i).src = .reg m → exec i s = .next t →
    s'.vreg = s.vreg → s'.pc = s.pc → s'.cr0 = s.cr0 → s'.cr4 = s.cr4 → s'.xcr0 = s.xcr0 → s'.cfg.mode = s.cfg.mode →
    s'.cfg.hasSse41 = s.cfg.hasSse41 → s'.cfg.hasAvx = s.cfg.hasAvx → s'.cfg.hasAvx2 = s.cfg.hasAvx2 →
    ∃ t', exec i s' = .next t' ∧ t'.vreg = t.vreg ∧ t'.pc = t.pc

/-- A memory-source form reads its operand's bytes and no other: a memory that agrees on them gives the same vector
registers and `pc` (20_memory.md R40, R41). -/
def Obligations.BytesBeyondTheOperandDoNotMatter : Prop :=
  ∀ (i : Instr) (s t : State) (o : MemOp) (m : Memory), (formIn s i).src = .mem o → exec i s = .next t →
    (∀ j, j < (shapeOf i).nbytes →
      Memory.read m ((operandAddr s o (formIn s i).len).toNat + j) =
        Memory.read s.mem ((operandAddr s o (formIn s i).len).toNat + j)) →
    ∃ t', exec i { s with mem := m } = .next t' ∧ t'.vreg = t.vreg ∧ t'.pc = t.pc

/-! ## What the forms leave unchanged -/

/-- No form writes a general register (10_state.md R25). -/
def Obligations.NoFormWritesGeneralRegisters : Prop :=
  ∀ (i : Instr) (s t : State), exec i s = .next t → t.gpr = s.gpr

/-- No form writes a flag, MXCSR or a control register (10_state.md R28, R29, R30). -/
def Obligations.NoFormWritesFlagsOrControl : Prop :=
  ∀ (i : Instr) (s t : State), exec i s = .next t →
    t.rflags = s.rflags ∧ t.mxcsr = s.mxcsr ∧ t.cr0 = s.cr0 ∧ t.cr4 = s.cr4 ∧ t.xcr0 = s.xcr0 ∧ t.cpl = s.cpl ∧
    t.segBase = s.segBase ∧ t.cfg = s.cfg

/-- No form stores: every byte of memory reads as before (00_scope.md R13, 40_pmovsx_legacy_sse.md R99). -/
def Obligations.NoFormStores : Prop :=
  ∀ (i : Instr) (s t : State), exec i s = .next t → ∀ a, Memory.read t.mem a = Memory.read s.mem a

/-- No form writes a vector register but its destination (10_state.md R21). -/
def Obligations.OnlyTheDestinationChanges : Prop :=
  ∀ (i : Instr) (s t : State) (q : VReg), exec i s = .next t → q ≠ (formIn s i).dst → t.readV q = s.readV q

/-- `pc` advances by the length of the instruction, modulo 2^64 in `M64` and 2^32 in `M32`, and the sum is an address of the
mode's space: no form completes where `pc` would wrap (10_state.md R27, 93_implementation_defined.md U21, log 12). -/
def Obligations.ProgramCounterAdvancesByTheLength : Prop :=
  ∀ (i : Instr) (s t : State), exec i s = .next t →
    (s.cfg.mode = .m64 → t.pc.toNat = (s.pc.toNat + (encode i).length) % 2 ^ 64 ∧
      s.pc.toNat + (encode i).length < 2 ^ 64) ∧
    (s.cfg.mode = .m32 → t.pc.toNat = (s.pc.toNat + (encode i).length) % 2 ^ 32 ∧
      s.pc.toNat + (encode i).length < 2 ^ 32)

/-- An enabled form whose source can be read is refused where its next `pc` would wrap (10_state.md R27,
93_implementation_defined.md U21; that a fault of the form comes first is the model's order: log 12). -/
def Obligations.WrappingPcIsRefused : Prop :=
  ∀ (i : Instr) (s : State) (S : Xmm), Enabled (groupOf i) s → SourceIs s (formIn s i) (shapeOf i).nbytes S →
    ¬ NextPcInSpace s (formIn s i).len → exec i s = .refused .pcWraps

/-! ## Exceptions -/

/-- A form whose CPUID feature flag is 0 raises #UD: a legacy form without SSE4_1, a VEX.128 form without AVX, a VEX.256
form without AVX2 (60_exceptions.md R123). -/
def Obligations.ClearFeatureFlagRaisesUndefinedOpcode : Prop :=
  ∀ (i : Instr) (s : State),
    (match groupOf i with
      | .legacy => s.cfg.hasSse41
      | .vex128 => s.cfg.hasAvx
      | .vex256 => s.cfg.hasAvx2) = false →
    exec i s = .fault .ud

/-- #UD comes first: any #UD condition of the form's group raises #UD, whatever CR0.TS and the operand are
(60_exceptions.md R125, R131). -/
def Obligations.UndefinedConditionsRaiseUndefinedOpcode : Prop :=
  ∀ (i : Instr) (s : State), UndefinedCondition (groupOf i) s → exec i s = .fault .ud

/-- Any form, register or memory source, raises #NM if CR0.TS = 1 and no #UD condition holds (60_exceptions.md R126). -/
def Obligations.TaskSwitchedRaisesDeviceNotAvailable : Prop :=
  ∀ (i : Instr) (s : State), s.cr0Ts = true → ¬ UndefinedCondition (groupOf i) s → exec i s = .fault .nm

/-- An enabled memory-source form raises what `MemCheck` finds where the alignment check does not raise, #AC(0) where only
the alignment check raises (operands of 2, 4, 8 bytes), and one of the two where both do (20_memory.md R52,
60_exceptions.md R127, R128, R131). -/
def Obligations.MemoryFaultsAreRaised : Prop :=
  ∀ (i : Instr) (s : State) (o : MemOp), Enabled (groupOf i) s → (formIn s i).src = .mem o →
    OperandInSpace s o (formIn s i).len (shapeOf i).nbytes →
    let check := operandCheck s o (formIn s i).len (shapeOf i).nbytes
    let misaligned := (operandAddr s o (formIn s i).len).toNat % (shapeOf i).nbytes ≠ 0
    (∀ f, check = some f → (s.alignmentChecking = false ∨ ¬ misaligned) → exec i s = .fault f) ∧
    (check = none → s.alignmentChecking = true → misaligned → (shapeOf i).nbytes ≠ 16 → exec i s = .fault .ac) ∧
    (∀ f, check = some f → s.alignmentChecking = true → misaligned → exec i s = .fault f ∨ exec i s = .fault .ac)

/-- With alignment checking enabled a misaligned 16-byte operand either raises #AC(0) or is read as any other, and the form
completes where its next `pc` does not wrap (60_exceptions.md R128, decision D26). The model leaves it open: log 9. -/
def Obligations.MisalignedSixteenByteOperandIsOpen : Prop :=
  ∀ (i : Instr) (s : State) (o : MemOp) (S : Xmm), Enabled (groupOf i) s → (formIn s i).src = .mem o →
    (shapeOf i).nbytes = 16 → OperandInSpace s o (formIn s i).len 16 → operandCheck s o (formIn s i).len 16 = none →
    s.alignmentChecking = true → (operandAddr s o (formIn s i).len).toNat % 16 ≠ 0 →
    inDevice s.cfg.devices (operandAddr s o (formIn s i).len) 16 = false →
    (∀ j, j < 16 → S.extractLsb' (8 * j) 8 = Memory.read s.mem ((operandAddr s o (formIn s i).len).toNat + j)) →
    NextPcInSpace s (formIn s i).len → exec i s = .fault .ac ∨ ∃ t, CompletesIn i s t S

/-- `MemCheck` reports protection as #SS(0) through SS and as #GP(0) through another segment, else a page fault; in `M64` a
non-canonical byte always faults, and where the oracle reports no page fault it faults as protection
(20_memory.md R51, R52, 60_exceptions.md R127). -/
def Obligations.MemCheckReportsBySegment : Prop :=
  ∀ (s : State) (a : Access),
    let protection := if a.seg = .ss then Fault.ss else Fault.gp
    (∀ f, memCheck s a = some f → f = protection ∨ ∃ code, f = .pf code) ∧
    (s.cfg.mode = .m64 →
      ∀ j, j < a.nbytes → canonical s.cfg.law (a.lin + BitVec.ofNat 64 j) = false →
        (memCheck s a = some protection ∨ ∃ code, oracleVerdict s.cfg.memCheck a = .page code ∧ memCheck s a = some (.pf code)))

/-- An address is canonical exactly when bits 63 to LAW-1 are all equal (20_memory.md R51). -/
def Obligations.CanonicalMeansEqualHighBits : Prop :=
  ∀ (law : Nat) (a : Word), 1 ≤ law → law ≤ 64 →
    (canonical law a = true ↔ ∀ b, law - 1 ≤ b → b < 64 → a.getLsbD b = a.getLsbD 63)

/-- An enabled form whose memory operand wraps is refused, before anything is checked (20_memory.md R50, R52). -/
def Obligations.WrappingOperandIsRefused : Prop :=
  ∀ (i : Instr) (s : State) (o : MemOp), Enabled (groupOf i) s → (formIn s i).src = .mem o →
    ¬ OperandInSpace s o (formIn s i).len (shapeOf i).nbytes → exec i s = .refused .operandWraps

/-- An enabled form whose memory operand passes every check and lies in device memory is refused (20_memory.md R42). -/
def Obligations.DeviceOperandIsRefused : Prop :=
  ∀ (i : Instr) (s : State) (o : MemOp), Enabled (groupOf i) s → (formIn s i).src = .mem o →
    OperandInSpace s o (formIn s i).len (shapeOf i).nbytes → operandCheck s o (formIn s i).len (shapeOf i).nbytes = none →
    (s.alignmentChecking = false ∨ (operandAddr s o (formIn s i).len).toNat % (shapeOf i).nbytes = 0) →
    inDevice s.cfg.devices (operandAddr s o (formIn s i).len) (shapeOf i).nbytes = true →
    exec i s = .refused .deviceMemory

/-- A register-source form raises #UD and #NM and no other exception, and in a mode of the spec it is never refused
but where its next `pc` would wrap (60_exceptions.md R130, R131, log 12). -/
def Obligations.RegisterFormsRaiseNoMemoryFault : Prop :=
  ∀ (i : Instr) (s : State) (m : VReg), (formIn s i).src = .reg m →
    (∀ f, exec i s = .fault f → f = .ud ∨ f = .nm) ∧
    (ModeInSpec s → NextPcInSpace s (formIn s i).len → ∀ r, exec i s ≠ .refused r)

/-! ## The step and the run -/

/-- Where the run is neither over nor outside the spec and the bytes at `pc` decode to `i`, a step is `exec i`; `exec`
itself moves `pc` past the instruction (60_exceptions.md R131, 30_encoding.md R83). -/
def Obligations.StepRunsTheDecodedInstruction : Prop :=
  ∀ (s : State) (i : Instr) (rest : List Byte), s.cfg.debugArmed = false → ModeInSpec s → s.cfg.endPc ≠ some s.pc →
    decode s.cfg.mode (fetchWindow s).1 = .ok i rest → step s = exec i s

/-- What a step answers before it fetches: an armed debug feature and a mode outside the spec are refused (60_exceptions.md
R145, 00_scope.md R5), and at `END` the state stays (70_reset_and_hazards.md R153). That `step` answers the same state
there is the model's convention: log 16; that `exec` checks #UD and #NM before the mode: log 21. -/
def Obligations.StepBeforeTheFetch : Prop :=
  ∀ s : State,
    (s.cfg.debugArmed = true → step s = .refused .debugArmed) ∧
    (s.cfg.debugArmed = false → s.cfg.mode = .other → step s = .refused .modeOutsideSpec) ∧
    (s.cfg.debugArmed = false → ModeInSpec s → s.cfg.endPc = some s.pc → step s = .next s) ∧
    (∀ i : Instr, s.cfg.mode = .other → ¬ UndefinedCondition (groupOf i) s → s.cr0Ts = false →
      exec i s = .refused .modeOutsideSpec)

/-- What a step answers where the bytes at `pc` are no instruction: #UD, or a refusal that names the bytes (30_encoding.md R80,
R83); and where the decoder needs a byte more, the fault of that byte, which may not be fetched (20_memory.md R45), or a
refusal where it lies beyond the top of the address space (10_state.md R27, U21). The rules describe the fetch no further: that
its bytes are checked one by one from `pc`, without the base of CS, and only as far as the decoder needs, is the model's
reading: log 15; the refusal at the top: log 12. -/
def Obligations.UndecodedBytesStopTheStep : Prop :=
  ∀ s : State, s.cfg.debugArmed = false → ModeInSpec s → s.cfg.endPc ≠ some s.pc →
    (decode s.cfg.mode (fetchWindow s).1 = .undefinedOpcode → step s = .fault .ud) ∧
    (∀ why, decode s.cfg.mode (fetchWindow s).1 = .refused why → step s = .refused (.undecoded why (fetchWindow s).1)) ∧
    (decode s.cfg.mode (fetchWindow s).1 = .truncated → s.pc.toNat < 2 ^ linearBits s.cfg.mode →
      if s.pc.toNat + (fetchWindow s).1.length < 2 ^ linearBits s.cfg.mode then
        ∃ e, fetchFault s (s.pc + BitVec.ofNat 64 (fetchWindow s).1.length) = some e ∧ step s = .fault e
      else step s = .refused .pcWraps)

/-- A well-formed instruction whose bytes stand in memory from `pc` upward, below the top of the address space, each of which
may be fetched, is what a step executes (20_memory.md R45, R58, 30_encoding.md R60, R83). That each byte is checked on its own,
at `pc` without the base of CS, is the model's reading: log 15; one that runs over the top is refused: log 12. -/
def Obligations.StoredInstructionIsExecuted : Prop :=
  ∀ (s : State) (i : Instr), s.cfg.debugArmed = false → i.wf s.cfg.mode = true → s.cfg.endPc ≠ some s.pc →
    s.pc.toNat + (encode i).length ≤ 2 ^ linearBits s.cfg.mode →
    (∀ j b, (encode i)[j]? = some b →
      fetchFault s (s.pc + BitVec.ofNat 64 j) = none ∧ Memory.read s.mem (s.pc.toNat + j) = b) →
    step s = exec i s

/-- A step that answers a next state is either final and changes nothing, or has executed the instruction that the
decoder reads at `pc`: it writes the destination of that instruction, advances `pc` by its length, and changes nothing else of the spec's state
(10_state.md R25, R27 to R30, R32, 20_memory.md R55, 70_reset_and_hazards.md R153). -/
def Obligations.StepChangesOneVectorRegisterAndPc : Prop :=
  ∀ s t : State, step s = .next t →
    (s.cfg.endPc = some s.pc ∧ t = s) ∨
    (s.cfg.endPc ≠ some s.pc ∧ ∃ (i : Instr) (rest : List Byte),
      decode s.cfg.mode (fetchWindow s).1 = .ok i rest ∧ i.wf s.cfg.mode = true ∧ exec i s = .next t ∧
      FormFrame s t (formIn s i).dst (formIn s i).len ∧
      UpperHalf (groupOf i) (s.readV (formIn s i).dst) (t.readV (formIn s i).dst))

/-- Every step keeps the invariant: memory in canonical form, a consistent configuration, a 32-bit `pc` outside `M64`, and
no bits above 127 in a vector register without AVX (00_scope.md R6, R7, 10_state.md R26, R33). -/
def Obligations.StepKeepsTheInvariant : Prop :=
  ∀ s t : State, Inv s → step s = .next t → Inv t

/-- The state after reset has the invariant. The reset values are the model's choice: log 1, log 3. -/
def Obligations.ResetHasTheInvariant : Prop :=
  Inv State.reset

/-- Straight out of reset all 18 forms raise #UD (10_state.md R35, its last sentence). The reset values are the family's,
not the spec's: log 1. -/
def Obligations.EveryFormIsUndefinedAtReset : Prop :=
  ∀ i : Instr, exec i State.reset = .fault .ud

/-- A run that ends final ends at `END` with every general register, flag, control register, segment base, byte of memory
and the configuration as at launch (20_memory.md R55, R58, 70_reset_and_hazards.md R153, R158). -/
def Obligations.FinalRunKeepsAllButVectorsAndPc : Prop :=
  ∀ (fuel : Nat) (s t : State), run fuel s = .final t → t.cfg.endPc = some t.pc ∧ SameButVectorsAndPc s t

/-- The four outcomes of a run, each exactly where it belongs. Along a chain of steps that has not reached `END` before its
`k`-th state, a run is out of fuel with that state after `k` steps short of `END`, final with it where it is at `END`, and stops
with the fault or the refusal of the step from it; and every run, whatever it answers, has such a chain from its first state
(70_reset_and_hazards.md R153, decision D23). A run that never reaches `END` is out of fuel with every fuel. -/
def Obligations.RunIteratesTheStep : Prop :=
  (∀ (k fuel : Nat) (states : Nat → State), (∀ j, j < k → step (states j) = .next (states (j + 1))) →
    (∀ j, j < k → isFinal (states j) = false) →
    (isFinal (states k) = true → run (k + fuel) (states 0) = .final (states k)) ∧
    (isFinal (states k) = false →
      run k (states 0) = .outOfFuel (states k) ∧
      (∀ e, step (states k) = .fault e → run (k + 1 + fuel) (states 0) = .fault e) ∧
      (∀ r, step (states k) = .refused r → run (k + 1 + fuel) (states 0) = .refused r))) ∧
  (∀ (fuel : Nat) (s : State), ∃ (k : Nat) (states : Nat → State), k ≤ fuel ∧ states 0 = s ∧
    (∀ j, j < k → step (states j) = .next (states (j + 1)) ∧ isFinal (states j) = false) ∧
    match run fuel s with
    | .final t => t = states k ∧ isFinal t = true
    | .fault e => k < fuel ∧ isFinal (states k) = false ∧ step (states k) = .fault e
    | .refused r => k < fuel ∧ isFinal (states k) = false ∧ step (states k) = .refused r
    | .outOfFuel t => k = fuel ∧ t = states k ∧ isFinal t = false)

/-- The launch of a table word runs it: from reset, with the word placed at `pc`, the very next step executes the
instruction the decoder reads from the word. The launch is the model's: log 5. -/
def Obligations.LaunchedWordIsExecuted : Prop :=
  ∀ (nbits w : Nat) (i : Instr), decodeTableWord nbits w = some i →
    step (State.reset.withFetchWord nbits w) = exec i (State.reset.withFetchWord nbits w)
end

