-- ==== Sys2Proof/Laws/Decode.lean ====
section
/-! SUPPORT. The small laws of the encoder and the decoder: each field that is written is read back, and lengths. -/

namespace Sys2Proof

open Sys2Proof.Machine

/-! ## Sequencing -/

@[simp] theorem Decoded.andThen_ok {α β : Type} (a : α) (rest : List Byte) (f : α → List Byte → Decoded β) :
    (Decoded.ok a rest).andThen f = f a rest := rfl

/-- If a sequence reads something, both parts did. -/
theorem Decoded.andThen_eq_ok {α β : Type} {d : Decoded α} {f : α → List Byte → Decoded β} {b : β} {rest : List Byte}
    (h : d.andThen f = .ok b rest) : ∃ a r, d = .ok a r ∧ f a r = .ok b rest := by
  cases d with
  | ok a r => exact ⟨a, r, rfl, h⟩
  | undefinedOpcode => simp [Decoded.andThen] at h
  | refused w => simp [Decoded.andThen] at h
  | truncated => simp [Decoded.andThen] at h

/-! ## Bytes and their fields -/

/-- A prefix byte is read as its prefix. -/
@[simp] theorem prefixOf_byte (p : Pfx) : prefixOf p.byte = some p := by
  cases p with
  | seg g => cases g <;> decide
  | opSize => decide
  | addrSize => decide
  | lock => decide
  | repne => decide
  | rep => decide

/-- What is read as a prefix is that prefix's byte. -/
theorem byte_of_prefixOf {b : Byte} {p : Pfx} (h : prefixOf b = some p) : p.byte = b := by
  have := List.find?_some h
  simpa using this

/-- An opcode byte is read as its pair. -/
@[simp] theorem pairOf_opcode (k : Pair) : pairOf k.opcode = some k := by
  cases k <;> decide

/-- What is read as a pair has that pair's opcode byte. -/
theorem opcode_of_pairOf {b : Byte} {k : Pair} (h : pairOf b = some k) : k.opcode = b := by
  have := List.find?_some h
  simpa using this

/-- A REX byte is one, and its bits are read back. -/
theorem rexOf_byte (r : Rex) : isRex r.byte = true ∧ rexOf r.byte = r := by
  obtain ⟨w, r, x, b⟩ := r
  revert w r x b
  decide

/-- A byte 40h to 4Fh is the REX byte of its bits. -/
theorem byte_rexOf (b : Byte) (h : isRex b = true) : (rexOf b).byte = b := by
  revert b
  decide

/-- No REX byte is a prefix, the escape byte or the VEX byte. -/
theorem rex_byte_ne (r : Rex) : prefixOf r.byte = none := by
  obtain ⟨w, r, x, b⟩ := r
  revert w r x b
  decide

/-- The fields of a ModRM or SIB byte are read back (R64, R65). -/
theorem fields_of_byte (a : BitVec 2) (b c : BitVec 3) :
    (a ++ b ++ c : BitVec 8).extractLsb' 6 2 = a ∧ (a ++ b ++ c : BitVec 8).extractLsb' 3 3 = b ∧
      (a ++ b ++ c : BitVec 8).extractLsb' 0 3 = c := by
  revert a b c
  decide

/-- A ModRM or SIB byte is made of its fields (R64, R65). -/
theorem byte_of_fields : ∀ m : Byte, (m.extractLsb' 6 2 ++ m.extractLsb' 3 3 ++ m.extractLsb' 0 3 : BitVec 8) = m := by
  decide

/-- Two bytes, least significant first, make the 16-bit displacement (R66). -/
theorem d16_of_bytes (v : BitVec 16) : v.extractLsb' 8 8 ++ v.extractLsb' 0 8 = v := by
  apply BitVec.eq_of_getLsbD_eq
  intro i hi
  rw [BitVec.getLsbD_append]
  by_cases h : i < 8
  · simp [h]
  · simp [h, show 8 + (i - 8) = i by omega]
    omega

/-- Four bytes, least significant first, make the 32-bit displacement (R66). -/
theorem d32_of_bytes (v : BitVec 32) :
    v.extractLsb' 24 8 ++ v.extractLsb' 16 8 ++ v.extractLsb' 8 8 ++ v.extractLsb' 0 8 = v := by
  apply BitVec.eq_of_getLsbD_eq
  intro i hi
  simp only [BitVec.getLsbD_append, BitVec.getLsbD_extractLsb']
  have hc : i < 8 ∨ (8 ≤ i ∧ i < 16) ∨ (16 ≤ i ∧ i < 24) ∨ (24 ≤ i ∧ i < 32) := by omega
  rcases hc with h | h | h | h
  · simp [h]
  · have h1 : ¬ i < 8 := by omega
    have h2 : i - 8 < 8 := by omega
    simp [h1, h2, show 8 + (i - 8) = i by omega]
  · have h1 : ¬ i < 8 := by omega
    have h2 : ¬ i - 8 < 8 := by omega
    have h3 : i - 8 - 8 < 8 := by omega
    simp [h1, h2, h3, show 16 + (i - 8 - 8) = i by omega]
  · have h1 : ¬ i < 8 := by omega
    have h2 : ¬ i - 8 < 8 := by omega
    have h3 : ¬ i - 8 - 8 < 8 := by omega
    have h4 : i - 8 - 8 - 8 < 8 := by omega
    simp [h1, h2, h3, h4, show 24 + (i - 8 - 8 - 8) = i by omega]

/-- The bytes of two appended bytes. -/
theorem bytes_of_d16 (b1 b0 : BitVec 8) : (b1 ++ b0).extractLsb' 0 8 = b0 ∧ (b1 ++ b0).extractLsb' 8 8 = b1 := by
  constructor <;> apply BitVec.eq_of_getLsbD_eq <;> intro i hi
  · rw [BitVec.getLsbD_extractLsb', BitVec.getLsbD_append]; simp [hi]
  · rw [BitVec.getLsbD_extractLsb', BitVec.getLsbD_append]; simp [hi]

/-- The bytes of four appended bytes. -/
theorem bytes_of_d32 (b3 b2 b1 b0 : BitVec 8) :
    (b3 ++ b2 ++ b1 ++ b0).extractLsb' 0 8 = b0 ∧ (b3 ++ b2 ++ b1 ++ b0).extractLsb' 8 8 = b1 ∧
    (b3 ++ b2 ++ b1 ++ b0).extractLsb' 16 8 = b2 ∧ (b3 ++ b2 ++ b1 ++ b0).extractLsb' 24 8 = b3 := by
  refine ⟨?_, ?_, ?_, ?_⟩ <;> apply BitVec.eq_of_getLsbD_eq <;> intro i hi
  · rw [BitVec.getLsbD_extractLsb', BitVec.getLsbD_append]; simp [hi]
  · rw [BitVec.getLsbD_extractLsb', BitVec.getLsbD_append, BitVec.getLsbD_append]; simp [hi]
  · rw [BitVec.getLsbD_extractLsb', BitVec.getLsbD_append, BitVec.getLsbD_append, BitVec.getLsbD_append]
    simp [hi, show ¬ 16 + i < 8 by omega, show 16 + i - 8 = 8 + i by omega]
  · rw [BitVec.getLsbD_extractLsb', BitVec.getLsbD_append, BitVec.getLsbD_append, BitVec.getLsbD_append]
    simp [hi, show ¬ 24 + i < 8 by omega, show 24 + i - 8 = 16 + i by omega,
      show ¬ 16 + i < 8 by omega, show 16 + i - 8 = 8 + i by omega]

/-- The displacement's bytes are read back. -/
theorem takeDisp_bytes (d : Disp) (rest : List Byte) : takeDisp d.bytes.length (d.bytes ++ rest) = .ok d rest := by
  cases d with
  | none => rfl
  | d8 v => rfl
  | d16 v => simp [Disp.bytes, takeDisp, d16_of_bytes]
  | d32 v => simp [Disp.bytes, takeDisp, d32_of_bytes]

/-- What is read as a displacement has the bytes that were read. -/
theorem takeDisp_eq_ok {n : Nat} {bs rest : List Byte} {d : Disp} (h : takeDisp n bs = .ok d rest) :
    d.bytes ++ rest = bs ∧ d.bytes.length = n := by
  unfold takeDisp at h
  split at h <;> first | (simp at h; done) | skip
  all_goals
    injection h with h1 h2
    subst h1 h2
  · exact ⟨rfl, rfl⟩
  · exact ⟨rfl, rfl⟩
  · rename_i b0 b1 bs
    obtain ⟨e0, e1⟩ := bytes_of_d16 b1 b0
    exact ⟨by simp [Disp.bytes, e0, e1], rfl⟩
  · rename_i b0 b1 b2 b3 bs
    obtain ⟨e0, e1, e2, e3⟩ := bytes_of_d32 b3 b2 b1 b0
    exact ⟨by simp [Disp.bytes, e0, e1, e2, e3], rfl⟩

/-- The fields of `vex1` are read back (R71). -/
theorem vex1_fields (e : VexEnc) :
    e.vex1.extractLsb' 0 5 = 2#5 ∧ e.vex1.getLsbD 7 = !e.r ∧ e.vex1.getLsbD 6 = !e.x ∧ e.vex1.getLsbD 5 = !e.b ∧
      e.vex1.extractLsb' 6 2 = BitVec.ofBool (!e.r) ++ BitVec.ofBool (!e.x) := by
  obtain ⟨pfx, r, x, b, w, reg, rm⟩ := e
  simp only [VexEnc.vex1]
  revert r x b
  decide

/-- The fields of `vex2` are read back (R71). -/
theorem vex2_fields (l : Bool) (e : VexEnc) :
    (e.vex2 l).extractLsb' 0 2 = 1#2 ∧ (e.vex2 l).getLsbD 2 = l ∧ (e.vex2 l).extractLsb' 3 4 = 15#4 ∧
      (e.vex2 l).getLsbD 7 = e.w := by
  obtain ⟨pfx, r, x, b, w, reg, rm⟩ := e
  simp only [VexEnc.vex2]
  revert l w
  decide

/-! ## Prefixes -/

theorem Pfx.sameClass_comm (p q : Pfx) : p.sameClass q = q.sameClass p := by
  cases p <;> cases q <;> rfl

/-- Distinct prefixes before a byte that is none are read in order. -/
theorem scanPrefixes_bytes (ps seen : List Pfx) (b : Byte) (rest : List Byte) (hd : distinctClasses ps = true)
    (hs : ∀ p ∈ ps, seen.any p.sameClass = false) (hb : prefixOf b = none) :
    scanPrefixes (ps.map Pfx.byte ++ b :: rest) seen = .ok ps (b :: rest) := by
  induction ps generalizing seen with
  | nil => simp [scanPrefixes, hb]
  | cons p ps ih =>
    simp only [distinctClasses, Bool.and_eq_true, Bool.not_eq_true'] at hd
    have h1 := hs p (by simp)
    simp only [List.map_cons, List.cons_append, scanPrefixes, prefixOf_byte, h1, Bool.false_eq_true, if_false]
    rw [ih (p :: seen) hd.2]
    · rfl
    · intro q hq
      simp only [List.any_cons, Bool.or_eq_false_iff]
      refine ⟨?_, hs q (by simp [hq])⟩
      have := List.any_eq_false.1 hd.1 q hq
      rw [Pfx.sameClass_comm]
      simpa using this

/-- What is read as prefixes are distinct prefixes with those bytes, before a byte that is none. -/
theorem scanPrefixes_eq_ok {bs seen rest} {ps : List Pfx} (h : scanPrefixes bs seen = .ok ps rest) :
    ps.map Pfx.byte ++ rest = bs ∧ distinctClasses ps = true ∧ (∀ p ∈ ps, seen.any p.sameClass = false) ∧
      ∃ b tail, rest = b :: tail ∧ prefixOf b = none := by
  induction bs generalizing seen ps with
  | nil => simp [scanPrefixes] at h
  | cons b bs ih =>
    simp only [scanPrefixes] at h
    split at h
    · rename_i hp
      injection h with h1 h2
      subst h1 h2
      exact ⟨rfl, rfl, by simp, b, bs, rfl, hp⟩
    · rename_i p hp
      split at h
      · simp at h
      · rename_i hs
        obtain ⟨qs, r, hq, he⟩ := Decoded.andThen_eq_ok h
        injection he with h1 h2
        subst h1 h2
        obtain ⟨e1, e2, e3, e4⟩ := ih hq
        refine ⟨by simp [e1, byte_of_prefixOf hp], ?_, ?_, e4⟩
        · simp only [distinctClasses, e2, Bool.and_true, Bool.not_eq_true']
          refine List.any_eq_false.2 fun q hq' => ?_
          have := e3 q hq'
          simp only [List.any_cons, Bool.or_eq_false_iff] at this
          rw [Pfx.sameClass_comm]
          simp [this.1]
        · intro q hq'
          rcases List.mem_cons.1 hq' with rfl | hq'
          · simpa using hs
          · have := e3 q hq'
            simp only [List.any_cons, Bool.or_eq_false_iff] at this
            exact this.2

/-! ## Lengths -/

/-- ModRM, SIB and displacement take as many bytes as R76 counts. -/
theorem rm_bytes_length (reg : BitVec 3) (o : RM) : (o.bytes reg).length = rmLength o := by
  obtain ⟨mod, rm, sib, disp⟩ := o
  cases sib <;> cases disp <;> rfl

/-- A legacy form's bytes are as many as its length. -/
theorem legacy_bytes_length (k : Pair) (e : LegacyEnc) : (e.bytes k).length = legacyLength e := by
  cases h : e.rex <;> simp [LegacyEnc.bytes, legacyLength, rm_bytes_length, h] <;> omega

/-- A VEX form's bytes are as many as its length. -/
theorem vex_bytes_length (l : Bool) (k : Pair) (e : VexEnc) : (e.bytes l k).length = vexLength e := by
  simp [VexEnc.bytes, vexLength, rm_bytes_length]
  omega

end Sys2Proof
end

