-- ==== Sys2Proof/Laws/Memory.lean ====
section
/-! SUPPORT. The laws of memory: read after write, and every operation keeps the canonical form. -/

namespace Sys2Proof.Machine

open Sys2Proof

/-- Below the first listed address nothing is listed. -/
theorem Memory.read_below (m : Memory) (low x : Nat) (h : Memory.wfFrom low m = true) (hx : x < low) :
    Memory.read m x = unlistedByte := by
  induction m generalizing low with
  | nil => rfl
  | cons c m ih =>
    obtain ⟨a, b⟩ := c
    simp only [Memory.wfFrom, Bool.and_eq_true, decide_eq_true_eq] at h
    have hne : x ≠ a := by omega
    simp only [Memory.read, hne, if_false]
    exact ih (a + 1) h.2 (by omega)

/-- A canonical list stays canonical under a lower bound. -/
theorem Memory.wfFrom_mono (m : Memory) (low low' : Nat) (h : Memory.wfFrom low m = true) (hl : low' ≤ low) :
    Memory.wfFrom low' m = true := by
  cases m with
  | nil => rfl
  | cons c m =>
    obtain ⟨a, b⟩ := c
    simp only [Memory.wfFrom, Bool.and_eq_true, decide_eq_true_eq] at h ⊢
    exact ⟨⟨⟨by omega, h.1.1.2⟩, h.1.2⟩, h.2⟩

/-- Reading a byte just written gives it. -/
theorem Memory.read_write_same (m : Memory) (low x : Nat) (v : Byte) (h : Memory.wfFrom low m = true) :
    Memory.read (Memory.write m x v) x = v := by
  induction m generalizing low with
  | nil =>
    by_cases hv : v = unlistedByte <;> simp [Memory.write, Memory.read, hv]
  | cons c m ih =>
    obtain ⟨a, b⟩ := c
    have hw := h
    simp only [Memory.wfFrom, Bool.and_eq_true, decide_eq_true_eq] at h
    simp only [Memory.write]
    split
    · rename_i hlt
      split
      · rename_i hv
        subst hv
        have hne : x ≠ a := by omega
        simp only [Memory.read, hne, if_false]
        exact Memory.read_below m (a + 1) x h.2 (by omega)
      · simp [Memory.read]
    · split
      · rename_i hxa
        subst hxa
        split
        · rename_i hv
          subst hv
          exact Memory.read_below m (x + 1) x h.2 (by omega)
        · simp [Memory.read]
      · rename_i hne
        simp only [Memory.read, hne, if_false]
        exact ih (a + 1) h.2

/-- Writing one byte leaves every other byte. -/
theorem Memory.read_write_other (m : Memory) (x y : Nat) (v : Byte) (hne : y ≠ x) :
    Memory.read (Memory.write m x v) y = Memory.read m y := by
  induction m with
  | nil => by_cases hv : v = unlistedByte <;> simp [Memory.write, Memory.read, hv, hne]
  | cons c m ih =>
    obtain ⟨a, b⟩ := c
    simp only [Memory.write]
    split
    · split
      · rfl
      · simp [Memory.read, hne]
    · split
      · rename_i hxa
        subst hxa
        split <;> simp [Memory.read, hne]
      · simp only [Memory.read, ih]

/-- A write keeps the canonical form, from any lower bound at or below the address. -/
theorem Memory.write_wfFrom (m : Memory) (low x : Nat) (v : Byte) (h : Memory.wfFrom low m = true)
    (hl : low ≤ x) (hx : x < 2 ^ 64) : Memory.wfFrom low (Memory.write m x v) = true := by
  induction m generalizing low with
  | nil =>
    by_cases hv : v = unlistedByte
    · simp [Memory.write, Memory.wfFrom, hv]
    · simp only [Memory.write, if_neg hv, Memory.wfFrom, Bool.and_eq_true, decide_eq_true_eq, bne_iff_ne, ne_eq]
      exact ⟨⟨⟨hl, hx⟩, hv⟩, trivial⟩
  | cons c m ih =>
    obtain ⟨a, b⟩ := c
    have hw := h
    simp only [Memory.wfFrom, Bool.and_eq_true, decide_eq_true_eq, bne_iff_ne, ne_eq] at h
    obtain ⟨⟨⟨h1, h2⟩, h3⟩, h4⟩ := h
    simp only [Memory.write]
    split
    · split
      · exact hw
      · rename_i hlt hv
        simp only [Memory.wfFrom, Bool.and_eq_true, decide_eq_true_eq, bne_iff_ne, ne_eq]
        exact ⟨⟨⟨hl, hx⟩, hv⟩, ⟨⟨by omega, h2⟩, h3⟩, h4⟩
    · split
      · rename_i hxa
        subst hxa
        split
        · exact Memory.wfFrom_mono m (x + 1) low h4 (by omega)
        · rename_i hv
          simp only [Memory.wfFrom, Bool.and_eq_true, decide_eq_true_eq, bne_iff_ne, ne_eq]
          exact ⟨⟨⟨hl, hx⟩, hv⟩, h4⟩
      · simp only [Memory.wfFrom, Bool.and_eq_true, decide_eq_true_eq, bne_iff_ne, ne_eq]
        exact ⟨⟨⟨h1, h2⟩, h3⟩, ih (a + 1) h4 (by omega)⟩

/-- A write keeps the canonical form. -/
theorem Memory.write_wf (m : Memory) (x : Nat) (v : Byte) (h : Memory.wf m = true) (hx : x < 2 ^ 64) :
    Memory.wf (Memory.write m x v) = true :=
  Memory.write_wfFrom m 0 x v h (Nat.zero_le _) hx

/-- The bytes a launch stores keep the canonical form. -/
theorem storeBytes_wf (mode : Mode) (bs : List Byte) (m : Memory) (a : Word) (h : Memory.wf m = true) :
    Memory.wf (storeBytes mode m a bs) = true := by
  induction bs generalizing m a with
  | nil => exact h
  | cons b bs ih => exact ih _ _ (Memory.write_wf m a.toNat b h a.isLt)

/-- Memory right after reset is in canonical form. -/
theorem reset_mem_wf : Memory.wf State.reset.mem = true := rfl

/-- A launch keeps memory in canonical form. -/
theorem withFetchWord_mem_wf (s : State) (nbits w : Nat) (h : Memory.wf s.mem = true) :
    Memory.wf (s.withFetchWord nbits w).mem = true :=
  storeBytes_wf _ _ _ _ h

end Sys2Proof.Machine
end

