-- ==== Sys2Proof/Laws/State.lean ====
section
/-! SUPPORT. One lemma per field per update of the state, so that no proof unfolds a record update. -/

namespace Sys2Proof.Machine

open Sys2Proof

@[simp] theorem State.setV_gpr (s : State) (i : VReg) (v : Vec) : (s.setV i v).gpr = s.gpr := rfl
@[simp] theorem State.setV_pc (s : State) (i : VReg) (v : Vec) : (s.setV i v).pc = s.pc := rfl
@[simp] theorem State.setV_rflags (s : State) (i : VReg) (v : Vec) : (s.setV i v).rflags = s.rflags := rfl
@[simp] theorem State.setV_mxcsr (s : State) (i : VReg) (v : Vec) : (s.setV i v).mxcsr = s.mxcsr := rfl
@[simp] theorem State.setV_cr0 (s : State) (i : VReg) (v : Vec) : (s.setV i v).cr0 = s.cr0 := rfl
@[simp] theorem State.setV_cr4 (s : State) (i : VReg) (v : Vec) : (s.setV i v).cr4 = s.cr4 := rfl
@[simp] theorem State.setV_xcr0 (s : State) (i : VReg) (v : Vec) : (s.setV i v).xcr0 = s.xcr0 := rfl
@[simp] theorem State.setV_cpl (s : State) (i : VReg) (v : Vec) : (s.setV i v).cpl = s.cpl := rfl
@[simp] theorem State.setV_segBase (s : State) (i : VReg) (v : Vec) : (s.setV i v).segBase = s.segBase := rfl
@[simp] theorem State.setV_mem (s : State) (i : VReg) (v : Vec) : (s.setV i v).mem = s.mem := rfl
@[simp] theorem State.setV_cfg (s : State) (i : VReg) (v : Vec) : (s.setV i v).cfg = s.cfg := rfl
@[simp] theorem State.setV_steps (s : State) (i : VReg) (v : Vec) : (s.setV i v).steps = s.steps := rfl

@[simp] theorem State.setPc_vreg (s : State) (pc : Word) : (s.setPc pc).vreg = s.vreg := rfl
@[simp] theorem State.setPc_gpr (s : State) (pc : Word) : (s.setPc pc).gpr = s.gpr := rfl
@[simp] theorem State.setPc_rflags (s : State) (pc : Word) : (s.setPc pc).rflags = s.rflags := rfl
@[simp] theorem State.setPc_mxcsr (s : State) (pc : Word) : (s.setPc pc).mxcsr = s.mxcsr := rfl
@[simp] theorem State.setPc_cr0 (s : State) (pc : Word) : (s.setPc pc).cr0 = s.cr0 := rfl
@[simp] theorem State.setPc_cr4 (s : State) (pc : Word) : (s.setPc pc).cr4 = s.cr4 := rfl
@[simp] theorem State.setPc_xcr0 (s : State) (pc : Word) : (s.setPc pc).xcr0 = s.xcr0 := rfl
@[simp] theorem State.setPc_cpl (s : State) (pc : Word) : (s.setPc pc).cpl = s.cpl := rfl
@[simp] theorem State.setPc_segBase (s : State) (pc : Word) : (s.setPc pc).segBase = s.segBase := rfl
@[simp] theorem State.setPc_mem (s : State) (pc : Word) : (s.setPc pc).mem = s.mem := rfl
@[simp] theorem State.setPc_cfg (s : State) (pc : Word) : (s.setPc pc).cfg = s.cfg := rfl
@[simp] theorem State.setPc_steps (s : State) (pc : Word) : (s.setPc pc).steps = s.steps := rfl

@[simp] theorem State.countStep_vreg (s : State) : (s.countStep).vreg = s.vreg := rfl
@[simp] theorem State.countStep_gpr (s : State) : (s.countStep).gpr = s.gpr := rfl
@[simp] theorem State.countStep_pc (s : State) : (s.countStep).pc = s.pc := rfl
@[simp] theorem State.countStep_rflags (s : State) : (s.countStep).rflags = s.rflags := rfl
@[simp] theorem State.countStep_mxcsr (s : State) : (s.countStep).mxcsr = s.mxcsr := rfl
@[simp] theorem State.countStep_cr0 (s : State) : (s.countStep).cr0 = s.cr0 := rfl
@[simp] theorem State.countStep_cr4 (s : State) : (s.countStep).cr4 = s.cr4 := rfl
@[simp] theorem State.countStep_xcr0 (s : State) : (s.countStep).xcr0 = s.xcr0 := rfl
@[simp] theorem State.countStep_cpl (s : State) : (s.countStep).cpl = s.cpl := rfl
@[simp] theorem State.countStep_segBase (s : State) : (s.countStep).segBase = s.segBase := rfl
@[simp] theorem State.countStep_mem (s : State) : (s.countStep).mem = s.mem := rfl
@[simp] theorem State.countStep_cfg (s : State) : (s.countStep).cfg = s.cfg := rfl

@[simp] theorem State.advance_vreg (s : State) (len : Nat) : (s.advance len).vreg = s.vreg := rfl
@[simp] theorem State.advance_gpr (s : State) (len : Nat) : (s.advance len).gpr = s.gpr := rfl
@[simp] theorem State.advance_rflags (s : State) (len : Nat) : (s.advance len).rflags = s.rflags := rfl
@[simp] theorem State.advance_mxcsr (s : State) (len : Nat) : (s.advance len).mxcsr = s.mxcsr := rfl
@[simp] theorem State.advance_cr0 (s : State) (len : Nat) : (s.advance len).cr0 = s.cr0 := rfl
@[simp] theorem State.advance_cr4 (s : State) (len : Nat) : (s.advance len).cr4 = s.cr4 := rfl
@[simp] theorem State.advance_xcr0 (s : State) (len : Nat) : (s.advance len).xcr0 = s.xcr0 := rfl
@[simp] theorem State.advance_cpl (s : State) (len : Nat) : (s.advance len).cpl = s.cpl := rfl
@[simp] theorem State.advance_segBase (s : State) (len : Nat) : (s.advance len).segBase = s.segBase := rfl
@[simp] theorem State.advance_mem (s : State) (len : Nat) : (s.advance len).mem = s.mem := rfl
@[simp] theorem State.advance_cfg (s : State) (len : Nat) : (s.advance len).cfg = s.cfg := rfl
@[simp] theorem State.advance_steps (s : State) (len : Nat) : (s.advance len).steps = s.steps := rfl

@[simp] theorem State.setV_vreg (s : State) (i : VReg) (v : Vec) : (s.setV i v).vreg = s.vreg.set i v := rfl
@[simp] theorem State.setPc_pc (s : State) (pc : Word) : (s.setPc pc).pc = pc := rfl
@[simp] theorem State.countStep_steps (s : State) : s.countStep.steps = s.steps + 1 := rfl
@[simp] theorem State.advance_pc (s : State) (len : Nat) : (s.advance len).pc = nextPc s.cfg.mode s.pc len := rfl

/-- A written vector register reads as what was written. -/
@[simp] theorem State.readV_setV_same (s : State) (i : VReg) (v : Vec) : (s.setV i v).readV i = v := by
  simp [State.readV]

/-- Writing one vector register leaves the others. -/
theorem State.readV_setV_other (s : State) (i q : VReg) (v : Vec) (h : q ≠ i) :
    (s.setV i v).readV q = s.readV q := by
  have hv : (i : Nat) ≠ q := fun e => h (Fin.ext e.symm)
  simp [State.readV, hv]

@[simp] theorem State.readV_setPc (s : State) (pc : Word) (q : VReg) : (s.setPc pc).readV q = s.readV q := rfl
@[simp] theorem State.readV_countStep (s : State) (q : VReg) : s.countStep.readV q = s.readV q := rfl
@[simp] theorem State.readV_advance (s : State) (len : Nat) (q : VReg) : (s.advance len).readV q = s.readV q := rfl

/-! ## A completed form -/

@[simp] theorem complete_pc (s : State) (f : Form) (v : Vec) :
    (complete s f v).pc = nextPc s.cfg.mode s.pc f.len := rfl
@[simp] theorem complete_steps (s : State) (f : Form) (v : Vec) : (complete s f v).steps = s.steps + 1 := rfl
@[simp] theorem complete_gpr (s : State) (f : Form) (v : Vec) : (complete s f v).gpr = s.gpr := rfl
@[simp] theorem complete_rflags (s : State) (f : Form) (v : Vec) : (complete s f v).rflags = s.rflags := rfl
@[simp] theorem complete_mxcsr (s : State) (f : Form) (v : Vec) : (complete s f v).mxcsr = s.mxcsr := rfl
@[simp] theorem complete_cr0 (s : State) (f : Form) (v : Vec) : (complete s f v).cr0 = s.cr0 := rfl
@[simp] theorem complete_cr4 (s : State) (f : Form) (v : Vec) : (complete s f v).cr4 = s.cr4 := rfl
@[simp] theorem complete_xcr0 (s : State) (f : Form) (v : Vec) : (complete s f v).xcr0 = s.xcr0 := rfl
@[simp] theorem complete_cpl (s : State) (f : Form) (v : Vec) : (complete s f v).cpl = s.cpl := rfl
@[simp] theorem complete_segBase (s : State) (f : Form) (v : Vec) : (complete s f v).segBase = s.segBase := rfl
@[simp] theorem complete_mem (s : State) (f : Form) (v : Vec) : (complete s f v).mem = s.mem := rfl
@[simp] theorem complete_cfg (s : State) (f : Form) (v : Vec) : (complete s f v).cfg = s.cfg := rfl

/-- The destination of a completed form holds the result. -/
@[simp] theorem complete_readV_dst (s : State) (f : Form) (v : Vec) : (complete s f v).readV f.dst = v := by
  simp [complete]

/-- A completed form leaves every other vector register. -/
theorem complete_readV_other (s : State) (f : Form) (v : Vec) (q : VReg) (h : q ≠ f.dst) :
    (complete s f v).readV q = s.readV q := by
  simp [complete, State.readV_setV_other _ _ _ _ h]

/-- The frame of a completed form, whatever the result. -/
theorem complete_frame (s : State) (f : Form) (v : Vec) : FormFrame s (complete s f v) f.dst f.len :=
  ⟨⟨rfl, rfl, rfl, rfl, rfl, rfl, rfl, rfl, rfl, rfl⟩, fun _ h => complete_readV_other s f v _ h, rfl⟩

end Sys2Proof.Machine
end

