-- ==== Sys2Proof/Laws/Ops.lean ====
section
/-! SUPPORT. For each shared operation, what it can do: provers cite these and do not unfold the operations. -/

namespace Sys2Proof.Machine

open Sys2Proof

/-! ## Sequencing -/

@[simp] theorem andThen_next {α β : Type} (a : α) (f : α → Host.Outcome β Fault Refusal) :
    andThen (.next a) f = f a := rfl

@[simp] theorem andThen_fault {α β : Type} (e : Fault) (f : α → Host.Outcome β Fault Refusal) :
    andThen (.fault e) f = .fault e := rfl

@[simp] theorem andThen_refused {α β : Type} (r : Refusal) (f : α → Host.Outcome β Fault Refusal) :
    andThen (.refused r) f = .refused r := rfl

/-- If a sequence answers `next`, both parts did. -/
theorem andThen_eq_next {α β : Type} {o : Host.Outcome α Fault Refusal} {f : α → Host.Outcome β Fault Refusal} {b : β}
    (h : andThen o f = .next b) : ∃ a, o = .next a ∧ f a = .next b := by
  cases o with
  | next a => exact ⟨a, rfl, h⟩
  | fault e => simp at h
  | refused r => simp at h

/-! ## The enabling checks -/

/-- The checks pass exactly where no #UD condition holds and CR0.TS is 0. -/
theorem checkEnabled_eq_none {u : Bool} {s : State} :
    checkEnabled u s = none ↔ u = false ∧ s.cr0Ts = false := by
  cases u <;> cases h : s.cr0Ts <;> simp [checkEnabled, h]

/-- A #UD condition raises #UD, before #NM. -/
theorem checkEnabled_ud (s : State) : checkEnabled true s = some .ud := rfl

/-- CR0.TS = 1 raises #NM where no #UD condition holds. -/
theorem checkEnabled_nm {s : State} (h : s.cr0Ts = true) : checkEnabled false s = some .nm := by
  simp [checkEnabled, h]

theorem legacyUndefined_eq_false {s : State} :
    s.legacyUndefined = false ↔ s.cfg.hasSse41 = true ∧ s.cr0Em = false ∧ s.cr4Osfxsr = true := by
  simp [State.legacyUndefined, and_assoc]

theorem vexStateDisabled_eq_false {s : State} :
    s.vexStateDisabled = false ↔ s.cr4Osxsave = true ∧ s.xcr0Sse = true ∧ s.xcr0Avx = true := by
  simp [State.vexStateDisabled, and_assoc]

theorem vex128Undefined_eq_false {s : State} :
    s.vex128Undefined = false ↔ s.cfg.hasAvx = true ∧ s.vexStateDisabled = false := by
  simp [State.vex128Undefined]

theorem vex256Undefined_eq_false {s : State} :
    s.vex256Undefined = false ↔ s.cfg.hasAvx2 = true ∧ s.vexStateDisabled = false := by
  simp [State.vex256Undefined]

/-- A mode of the spec is not `other`. -/
theorem modeInSpec_iff {s : State} : ModeInSpec s ↔ s.cfg.mode ≠ .other := by
  unfold ModeInSpec
  cases s.cfg.mode <;> simp

/-! ## The execution skeletons -/

/-- If `finish` answers `next t`, `pc` does not wrap and `t` is the completion. -/
theorem finish_eq_next {s t : State} {f : Form} {v : Vec} (h : finish s f v = .next t) :
    pcWraps s.cfg.mode s.pc f.len = false ∧ t = complete s f v := by
  unfold finish at h
  split at h
  · simp at h
  · rename_i hw
    injection h with h
    exact ⟨by simpa using hw, h.symm⟩

/-- Where `pc` does not wrap, `finish` completes. -/
theorem finish_next {s : State} {f : Form} (v : Vec) (h : pcWraps s.cfg.mode s.pc f.len = false) :
    finish s f v = .next (complete s f v) := by
  simp [finish, h]

/-- Where `pc` would wrap, `finish` refuses. -/
theorem finish_refused {s : State} {f : Form} (v : Vec) (h : pcWraps s.cfg.mode s.pc f.len = true) :
    finish s f v = .refused .pcWraps := by
  simp [finish, h]

/-- The next `pc` does not wrap exactly where it is an address of the mode's space. -/
theorem pcWraps_eq_false {mode : Mode} {pc : Word} {len : Nat} :
    pcWraps mode pc len = false ↔ pc.toNat + len < 2 ^ linearBits mode := by
  simp [pcWraps]

/-- A next `pc` that does not wrap is the sum (10_state.md R27). -/
theorem nextPc_toNat {mode : Mode} {pc : Word} {len : Nat} (h : pcWraps mode pc len = false) :
    (nextPc mode pc len).toNat = pc.toNat + len := by
  rw [pcWraps_eq_false] at h
  cases mode <;> simp only [linearBits] at h <;> simp [nextPc, BitVec.toNat_add] <;> omega

/-- If a form answers `next t`, its checks passed, its source was read, `pc` does not wrap, and `t` is its completion. -/
theorem runForm_eq_next {u : Bool} {f : Form} {n : Nat} {r : Xmm → Vec} {s t : State}
    (h : runForm u f n r s = .next t) :
    u = false ∧ s.cr0Ts = false ∧ s.cfg.mode ≠ .other ∧ pcWraps s.cfg.mode s.pc f.len = false ∧
      ∃ src, readSource s f n = .next src ∧ t = complete s f (r src) := by
  unfold runForm at h
  cases hc : checkEnabled u s with
  | some e => simp [hc, raise] at h
  | none =>
    obtain ⟨hu, ht⟩ := checkEnabled_eq_none.1 hc
    by_cases hm : s.cfg.mode = .other
    · simp [hc, hm] at h
    · simp only [hc, hm, if_false] at h
      obtain ⟨src, hs, he⟩ := andThen_eq_next h
      obtain ⟨hw, he⟩ := finish_eq_next he
      exact ⟨hu, ht, hm, hw, src, hs, he⟩

/-- A form whose checks pass, whose source is read and whose next `pc` does not wrap completes. -/
theorem runForm_next {u : Bool} {f : Form} {n : Nat} {r : Xmm → Vec} {s : State} {src : Xmm} (hu : u = false)
    (ht : s.cr0Ts = false) (hm : s.cfg.mode ≠ .other) (hs : readSource s f n = .next src)
    (hw : pcWraps s.cfg.mode s.pc f.len = false) : runForm u f n r s = .next (complete s f (r src)) := by
  simp [runForm, checkEnabled_eq_none.2 ⟨hu, ht⟩, hm, hs, finish_next _ hw]

/-- What a legacy form can answer as a next state. -/
theorem execLegacy_eq_next {sw dw : Nat} {e : LegacyEnc} {s t : State} (h : execLegacy sw dw e s = .next t) :
    s.legacyUndefined = false ∧ s.cr0Ts = false ∧ s.cfg.mode ≠ .other ∧
      pcWraps s.cfg.mode s.pc (legacyForm s.cfg.mode e).len = false ∧
      ∃ src, readSource s (legacyForm s.cfg.mode e) (128 / dw * sw / 8) = .next src ∧
        t = complete s (legacyForm s.cfg.mode e)
          ((s.readV (legacyForm s.cfg.mode e).dst).extractLsb' 128 128 ++ (psx sw dw (128 / dw) src).setWidth 128) :=
  runForm_eq_next h

/-- What a VEX.128 form can answer as a next state. -/
theorem execVex128_eq_next {sw dw : Nat} {e : VexEnc} {s t : State} (h : execVex128 sw dw e s = .next t) :
    s.vex128Undefined = false ∧ s.cr0Ts = false ∧ s.cfg.mode ≠ .other ∧
      pcWraps s.cfg.mode s.pc (vexForm s.cfg.mode e).len = false ∧
      ∃ src, readSource s (vexForm s.cfg.mode e) (128 / dw * sw / 8) = .next src ∧
        t = complete s (vexForm s.cfg.mode e) (0#128 ++ (psx sw dw (128 / dw) src).setWidth 128) :=
  runForm_eq_next h

/-- What a VEX.256 form can answer as a next state. -/
theorem execVex256_eq_next {sw dw : Nat} {e : VexEnc} {s t : State} (h : execVex256 sw dw e s = .next t) :
    s.vex256Undefined = false ∧ s.cr0Ts = false ∧ s.cfg.mode ≠ .other ∧
      pcWraps s.cfg.mode s.pc (vexForm s.cfg.mode e).len = false ∧
      ∃ src, readSource s (vexForm s.cfg.mode e) (256 / dw * sw / 8) = .next src ∧
        t = complete s (vexForm s.cfg.mode e) (psx sw dw (256 / dw) src) :=
  runForm_eq_next h

/-! ## Reading the source -/

/-- A register source reads the low bytes of the XMM view and never stops. -/
theorem readSource_reg {s : State} {f : Form} {n : Nat} {m : VReg} (h : f.src = .reg m) :
    readSource s f n = .next (((s.readXmm m).setWidth (8 * n)).setWidth 128) := by
  simp [readSource, h]

/-- A memory source is `memRead` at its effective address. -/
theorem readSource_mem {s : State} {f : Form} {n : Nat} {o : MemOp} (h : f.src = .mem o) :
    readSource s f n = memRead s o.asz o.seg (effectiveAddr s o f.len) n := by
  simp [readSource, h]

/-- No exception arises on an operand that the oracle admits and the alignment check lets pass. -/
theorem operandFault_eq_none {s : State} {a : Access} :
    operandFault s a = none ↔ memCheck s a = none ∧ alignmentFaults s a.lin a.nbytes = false := by
  unfold operandFault
  cases memCheck s a <;> cases alignmentFaults s a.lin a.nbytes <;> simp
  split <;> simp

/-- If `memRead` answers a value, no check stopped it and the value is what memory holds. -/
theorem memRead_eq_next {s : State} {asz : AddrSize} {seg : Seg} {ea : Word} {n : Nat} {v : Xmm}
    (h : memRead s asz seg ea n = .next v) :
    operandWraps s.cfg.mode asz ea (linearAddr s seg ea) n = false ∧
    operandFault s (dataAccess s seg ea n) = none ∧
    inDevice s.cfg.devices (linearAddr s seg ea) n = false ∧
    v = readLE s.mem (linearAddr s seg ea).toNat n := by
  have hl : (dataAccess s seg ea n).lin = linearAddr s seg ea := rfl
  simp only [memRead, hl] at h
  split at h
  · simp at h
  · rename_i hw
    split at h
    · simp [raise] at h
    · rename_i hf
      split at h
      · simp at h
      · rename_i hd
        injection h with h
        exact ⟨by simpa using hw, hf, by simpa using hd, h.symm⟩

/-- `memRead` of an operand that no check stops. -/
theorem memRead_next {s : State} {asz : AddrSize} {seg : Seg} {ea : Word} {n : Nat}
    (hw : operandWraps s.cfg.mode asz ea (linearAddr s seg ea) n = false)
    (hf : operandFault s (dataAccess s seg ea n) = none)
    (hd : inDevice s.cfg.devices (linearAddr s seg ea) n = false) :
    memRead s asz seg ea n = .next (readLE s.mem (linearAddr s seg ea).toNat n) := by
  have hl : (dataAccess s seg ea n).lin = linearAddr s seg ea := rfl
  simp [memRead, hl, hw, hf, hd]

/-- The alignment check does not raise while it is disabled. -/
theorem alignmentFaults_disabled {s : State} (lin : Word) (n : Nat) (h : s.alignmentChecking = false) :
    alignmentFaults s lin n = false := by
  simp [alignmentFaults, h]

/-- The alignment check does not raise on an aligned operand. -/
theorem alignmentFaults_aligned {s : State} {lin : Word} {n : Nat} (h : lin.toNat % n = 0) :
    alignmentFaults s lin n = false := by
  simp [alignmentFaults, h]

/-- With alignment checking enabled a misaligned operand of a size other than 16 raises. -/
theorem alignmentFaults_misaligned {s : State} {lin : Word} {n : Nat} (hs : s.alignmentChecking = true)
    (h : lin.toNat % n ≠ 0) (hn : n ≠ 16) : alignmentFaults s lin n = true := by
  simp [alignmentFaults, hs, h, hn]

/-! ## Bytes and lanes -/

/-- Byte `i` of a little-endian read is the byte at the address `lin + i` (20_memory.md R40). -/
theorem readLE_byte (m : Memory) (lin : Nat) {n i : Nat} (hi : i < n) (hn : n ≤ 16) :
    (readLE m lin n).extractLsb' (8 * i) 8 = Memory.read m (lin + i) := by
  induction n with
  | zero => omega
  | succ n ih =>
    apply BitVec.eq_of_getLsbD_eq
    intro j hj
    by_cases hin : i = n
    · subst hin
      have hlow : ∀ k, (readLE m lin k).getLsbD (8 * k + j) = false := by
        intro k
        have : ∀ q, q ≤ k → (readLE m lin q).getLsbD (8 * k + j) = false := by
          intro q hq
          induction q with
          | zero => simp [readLE]
          | succ q ihq =>
            simp only [readLE, BitVec.getLsbD_or, ihq (by omega), Bool.false_or, BitVec.getLsbD_shiftLeft,
              BitVec.getLsbD_setWidth]
            rw [BitVec.getLsbD_of_ge _ (8 * k + j - 8 * q) (by omega)]
            simp
        exact this k (Nat.le_refl k)
      simp only [readLE, BitVec.getLsbD_extractLsb', hj, decide_true, Bool.true_and, BitVec.getLsbD_or, hlow i,
        Bool.false_or, BitVec.getLsbD_shiftLeft, BitVec.getLsbD_setWidth]
      have h1 : 8 * i + j < 128 := by omega
      have h2 : ¬ 8 * i + j < 8 * i := by omega
      have h3 : 8 * i + j - 8 * i = j := by omega
      have h4 : j < 128 := by omega
      simp [h1, h3, h4]
    · have hlt : i < n := by omega
      rw [← ih hlt (by omega)]
      have h2 : 8 * i + j < 8 * n := by omega
      simp [readLE, h2]

/-- Nothing of `PSX` stands at or above bit `dw * n`. -/
theorem psx_getLsbD_high (sw dw n : Nat) (src : Xmm) {j : Nat} (hj : dw * n ≤ j) :
    (psx sw dw n src).getLsbD j = false := by
  induction n with
  | zero => simp [psx]
  | succ n ih =>
    have hm : dw * (n + 1) = dw * n + dw := Nat.mul_succ dw n
    simp only [psx, BitVec.getLsbD_or, ih (by omega), Bool.false_or, BitVec.getLsbD_shiftLeft, BitVec.getLsbD_setWidth]
    rw [BitVec.getLsbD_of_ge (lane sw dw src n) (j - dw * n) (by omega)]
    simp

/-- Element `i` of `PSX` is element `i` of the source, sign-extended (00_scope.md R16). -/
theorem psx_lane (sw dw : Nat) {n i : Nat} (src : Xmm) (hi : i < n) (hn : dw * n ≤ 256) :
    (psx sw dw n src).extractLsb' (dw * i) dw = lane sw dw src i := by
  induction n with
  | zero => omega
  | succ n ih =>
    have hm : dw * (n + 1) = dw * n + dw := Nat.mul_succ dw n
    apply BitVec.eq_of_getLsbD_eq
    intro j hj
    by_cases hin : i = n
    · subst hin
      have hlow : (psx sw dw i src).getLsbD (dw * i + j) = false := psx_getLsbD_high sw dw i src (by omega)
      have h1 : dw * i + j < 256 := by omega
      have h3 : dw * i + j - dw * i = j := by omega
      have h4 : j < 256 := by omega
      have h2 : ¬ dw * i + j < dw * i := by omega
      simp only [psx, BitVec.getLsbD_extractLsb', hj, BitVec.getLsbD_or, hlow, BitVec.getLsbD_shiftLeft,
        BitVec.getLsbD_setWidth, h1, h2, h3, h4, decide_true, decide_false, Bool.true_and, Bool.false_or, Bool.not_false]
    · have hlt : i < n := by omega
      have hle : dw * (i + 1) ≤ dw * n := Nat.mul_le_mul_left dw hlt
      have hm' : dw * (i + 1) = dw * i + dw := Nat.mul_succ dw i
      rw [← ih hlt (by omega)]
      have h2 : dw * i + j < dw * n := by omega
      simp [psx, hj, h2]

/-! ## The fetch -/

/-- The address after one that is not the last of the mode's space. -/
theorem toNat_add_one {mode : Mode} {a : Word} (h : a.toNat + 1 < 2 ^ linearBits mode) : (a + 1).toNat = a.toNat + 1 := by
  have : 2 ^ linearBits mode ≤ 2 ^ 64 := by cases mode <;> decide
  rw [BitVec.toNat_add]
  simp
  omega

/-- The `j`-th address after the next one. -/
theorem add_one_add_ofNat (a : Word) (j : Nat) : a + 1 + BitVec.ofNat 64 j = a + BitVec.ofNat 64 (j + 1) := by
  apply BitVec.eq_of_toNat_eq
  simp [BitVec.toNat_add]
  omega

/-- Bytes that stand in memory from `a` upward, below the top of the space, and may be fetched are what is fetched first. -/
theorem fetchFrom_bytes (s : State) {n : Nat} {bs : List Byte} {a : Word} (hn : bs.length ≤ n)
    (ha : a.toNat + bs.length ≤ 2 ^ linearBits s.cfg.mode)
    (hb : ∀ j b, bs[j]? = some b →
      fetchFault s (a + BitVec.ofNat 64 j) = none ∧ Memory.read s.mem (a.toNat + j) = b) :
    ∃ rest, (fetchFrom s n a).1 = bs ++ rest := by
  induction n generalizing bs a with
  | zero =>
    obtain rfl : bs = [] := by simpa using hn
    exact ⟨_, rfl⟩
  | succ n ih =>
    match bs with
    | [] => exact ⟨_, rfl⟩
    | b :: bs =>
      have hf : fetchFault s a = none := by simpa using (hb 0 b rfl).1
      have hr : Memory.read s.mem a.toNat = b := (hb 0 b rfl).2
      simp only [fetchFrom, hf, hr]
      match bs with
      | [] => exact ⟨_, rfl⟩
      | c :: bs =>
        simp only [List.length_cons] at ha hn
        have hs := toNat_add_one (mode := s.cfg.mode) (a := a) (by omega)
        have hw : pcWraps s.cfg.mode a 1 = false := pcWraps_eq_false.2 (by omega)
        obtain ⟨rest, he⟩ := ih (bs := c :: bs) (a := a + 1) (by simp; omega) (by simp; omega) fun j d hj => by
          rw [add_one_add_ofNat, hs, Nat.add_assoc, Nat.add_comm 1 j]
          exact hb (j + 1) d (by simpa using hj)
        simp only [hw, Bool.false_eq_true, if_false, he]
        exact ⟨rest, rfl⟩

/-- What a fetch that starts in the space can answer: all the bytes asked for; those before a byte that may not be fetched,
and its fault; or those up to the top of the space, and the refusal. -/
theorem fetchFrom_cases (s : State) (n : Nat) (a : Word) (ha : a.toNat < 2 ^ linearBits s.cfg.mode) :
    (fetchFrom s n a).1.length = n ∨
    (a.toNat + (fetchFrom s n a).1.length < 2 ^ linearBits s.cfg.mode ∧
      ∃ e, fetchFault s (a + BitVec.ofNat 64 (fetchFrom s n a).1.length) = some e ∧ (fetchFrom s n a).2 = .fault e) ∨
    (a.toNat + (fetchFrom s n a).1.length = 2 ^ linearBits s.cfg.mode ∧ (fetchFrom s n a).2 = .refused .pcWraps) := by
  induction n generalizing a with
  | zero => exact .inl rfl
  | succ n ih =>
    cases hf : fetchFault s a with
    | some e => exact .inr (.inl (by simp [fetchFrom, hf, raise, ha]))
    | none =>
      cases hw : pcWraps s.cfg.mode a 1 with
      | true =>
        have : 2 ^ linearBits s.cfg.mode ≤ a.toNat + 1 := by simpa [pcWraps] using hw
        exact .inr (.inr (by simp [fetchFrom, hf, hw]; omega))
      | false =>
        have hlt := pcWraps_eq_false.1 hw
        have hs := toNat_add_one hlt
        have hc : fetchFrom s (n + 1) a =
            (Memory.read s.mem a.toNat :: (fetchFrom s n (a + 1)).1, (fetchFrom s n (a + 1)).2) := by
          simp [fetchFrom, hf, hw]
        rw [hc]
        simp only [List.length_cons, ← add_one_add_ofNat]
        rcases ih (a + 1) (by omega) with h | ⟨h, e, h1, h2⟩ | ⟨h, h1⟩
        · exact .inl (by omega)
        · exact .inr (.inl ⟨by omega, e, h1, h2⟩)
        · exact .inr (.inr ⟨by omega, h1⟩)

/-! ## The step -/

/-- If a step answers `next t`, the run was final and stays, or a fetched instruction's meaning answered `t`. -/
theorem step_eq_next {s t : State} (h : step s = .next t) :
    s.cfg.debugArmed = false ∧ s.cfg.mode ≠ .other ∧
      ((atEnd s = true ∧ t = s) ∨ (atEnd s = false ∧ ∃ i, fetchInstr s = .next i ∧ exec i s = .next t)) := by
  unfold step beforeFetch at h
  cases hd : s.cfg.debugArmed with
  | true => simp [hd] at h
  | false =>
    by_cases hm : s.cfg.mode = .other
    · simp [hd, hm] at h
    · cases he : atEnd s with
      | true =>
        simp only [hd, hm, he, if_true, if_false, Bool.false_eq_true] at h
        injection h with h
        exact ⟨rfl, hm, .inl ⟨rfl, h.symm⟩⟩
      | false =>
        simp only [hd, hm, he, if_false, Bool.false_eq_true] at h
        obtain ⟨i, hi, hx⟩ := andThen_eq_next h
        exact ⟨rfl, hm, .inr ⟨rfl, i, hi, hx⟩⟩

/-- If an instruction is fetched, the decoder read it from the bytes at `pc`. -/
theorem fetchInstr_eq_next {s : State} {i : Instr} (h : fetchInstr s = .next i) :
    ∃ rest, decode s.cfg.mode (fetchWindow s).1 = .ok i rest := by
  unfold fetchInstr at h
  cases hd : decode s.cfg.mode (fetchWindow s).1 with
  | ok j rest =>
    rw [hd] at h
    injection h with h
    exact ⟨rest, by rw [h]⟩
  | undefinedOpcode => rw [hd] at h; simp [raise] at h
  | refused w => rw [hd] at h; simp at h
  | truncated =>
    rw [hd] at h
    cases hw : (fetchWindow s).2 <;> simp [hw] at h

end Sys2Proof.Machine
end

