-- ==== Sys2Proof/Laws/PerInstr.lean ====
section
/-! SUPPORT. Statements about each instruction as syntax, one lemma per constructor: an encoding has the length R76 gives. -/

namespace Sys2Proof.Laws.EncodeLength

open Sys2Proof Sys2Proof.Machine

/-- The bytes of an instruction are as many as its length (30_encoding.md R76). -/
def Statement (i : Instr) : Prop :=
  (encode i).length = instrLength i

theorem pmovsxbw (e : LegacyEnc) : Statement (.pmovsxbw e) := legacy_bytes_length _ e
theorem pmovsxbd (e : LegacyEnc) : Statement (.pmovsxbd e) := legacy_bytes_length _ e
theorem pmovsxbq (e : LegacyEnc) : Statement (.pmovsxbq e) := legacy_bytes_length _ e
theorem pmovsxwd (e : LegacyEnc) : Statement (.pmovsxwd e) := legacy_bytes_length _ e
theorem pmovsxwq (e : LegacyEnc) : Statement (.pmovsxwq e) := legacy_bytes_length _ e
theorem pmovsxdq (e : LegacyEnc) : Statement (.pmovsxdq e) := legacy_bytes_length _ e
theorem vpmovsxbwXmm (e : VexEnc) : Statement (.vpmovsxbwXmm e) := vex_bytes_length _ _ e
theorem vpmovsxbdXmm (e : VexEnc) : Statement (.vpmovsxbdXmm e) := vex_bytes_length _ _ e
theorem vpmovsxbqXmm (e : VexEnc) : Statement (.vpmovsxbqXmm e) := vex_bytes_length _ _ e
theorem vpmovsxwdXmm (e : VexEnc) : Statement (.vpmovsxwdXmm e) := vex_bytes_length _ _ e
theorem vpmovsxwqXmm (e : VexEnc) : Statement (.vpmovsxwqXmm e) := vex_bytes_length _ _ e
theorem vpmovsxdqXmm (e : VexEnc) : Statement (.vpmovsxdqXmm e) := vex_bytes_length _ _ e
theorem vpmovsxbwYmm (e : VexEnc) : Statement (.vpmovsxbwYmm e) := vex_bytes_length _ _ e
theorem vpmovsxbdYmm (e : VexEnc) : Statement (.vpmovsxbdYmm e) := vex_bytes_length _ _ e
theorem vpmovsxbqYmm (e : VexEnc) : Statement (.vpmovsxbqYmm e) := vex_bytes_length _ _ e
theorem vpmovsxwdYmm (e : VexEnc) : Statement (.vpmovsxwdYmm e) := vex_bytes_length _ _ e
theorem vpmovsxwqYmm (e : VexEnc) : Statement (.vpmovsxwqYmm e) := vex_bytes_length _ _ e
theorem vpmovsxdqYmm (e : VexEnc) : Statement (.vpmovsxdqYmm e) := vex_bytes_length _ _ e

end Sys2Proof.Laws.EncodeLength
end

