-- ==== Sys2Proof/Tests/Slice0.lean ====
section
/-! SUPPORT. The model's own tests. Expected values come from the spec: the words and examples of the instruction rules
R91 to R116, and the vectors of 95_test_vectors.md, named beside each test. -/

namespace Sys2Proof.Tests

open Sys2Proof Sys2Proof.Machine

/-! ## Well-formedness: each check refuses an ill-formed term -/

/-- A register operand, r/m = 0. -/
def regRM : RM := { mod := 3, rm := 0, sib := none, disp := .none }

/-- `pmovsxbw xmm1, xmm0` -/
def plainLegacy : LegacyEnc := { pfx := [.opSize], rex := none, reg := 1, rm := regRM }

/-- `vpmovsxbw xmm0, xmm0` -/
def plainVex : VexEnc := { pfx := [], r := false, x := false, b := false, w := false, reg := 0, rm := regRM }

theorem test_wf_plain_forms : (Instr.pmovsxbw plainLegacy).wf .m64 = true ∧ (Instr.pmovsxbw plainLegacy).wf .m32 = true ∧
    (Instr.vpmovsxbwXmm plainVex).wf .m64 = true ∧ (Instr.vpmovsxdqYmm plainVex).wf .m32 = true := by decide

theorem test_wf_refuses_other_mode : (Instr.pmovsxbw plainLegacy).wf .other = false ∧
    (Instr.vpmovsxbwXmm plainVex).wf .other = false := by decide

theorem test_wf_refuses_repeated_class :
    (Instr.pmovsxbd { plainLegacy with pfx := [.seg .cs, .opSize, .seg .ds] }).wf .m64 = false ∧
    (Instr.vpmovsxbdXmm { plainVex with pfx := [.addrSize, .addrSize] }).wf .m64 = false := by decide

theorem test_wf_refuses_missing_66 : (Instr.pmovsxbq { plainLegacy with pfx := [] }).wf .m64 = false := by decide

theorem test_wf_refuses_66_before_vex : (Instr.vpmovsxbqXmm { plainVex with pfx := [.opSize] }).wf .m64 = false := by decide

theorem test_wf_refuses_lock_and_repeat : (Instr.pmovsxwd { plainLegacy with pfx := [.lock, .opSize] }).wf .m64 = false ∧
    (Instr.pmovsxwd { plainLegacy with pfx := [.rep, .opSize] }).wf .m64 = false ∧
    (Instr.vpmovsxwdYmm { plainVex with pfx := [.repne] }).wf .m64 = false := by decide

theorem test_wf_refuses_rex_in_m32 :
    (Instr.pmovsxwq { plainLegacy with rex := some ⟨false, false, false, false⟩ }).wf .m32 = false := by decide

theorem test_wf_refuses_extended_vex_in_m32 : (Instr.vpmovsxwqXmm { plainVex with r := true }).wf .m32 = false ∧
    (Instr.vpmovsxwqXmm { plainVex with x := true }).wf .m32 = false ∧
    (Instr.vpmovsxwqXmm { plainVex with b := true }).wf .m32 = true := by decide

theorem test_wf_refuses_wrong_sib : (Instr.pmovsxdq { plainLegacy with rm := { regRM with mod := 0, rm := 4 } }).wf .m64 = false ∧
    (Instr.pmovsxdq { plainLegacy with rm := { regRM with sib := some ⟨0, 4, 4⟩ } }).wf .m64 = false := by decide

theorem test_wf_refuses_wrong_displacement :
    (Instr.vpmovsxdqXmm { plainVex with rm := { regRM with mod := 0, rm := 5 } }).wf .m64 = false ∧
    (Instr.vpmovsxdqXmm { plainVex with rm := { regRM with mod := 1, disp := .d32 0 } }).wf .m64 = false ∧
    (Instr.vpmovsxdqXmm { plainVex with rm := { regRM with mod := 2, disp := .d16 0 } }).wf .m64 = false := by decide

/-! ## Decoding: one written-out word per constructor (the words of R91 to R116) -/

theorem test_decode_pmovsxbw : decode .m64 [0x66, 0x0F, 0x38, 0x20, 0xC8] =
    .ok (.pmovsxbw { pfx := [.opSize], rex := none, reg := 1, rm := { regRM with rm := 0 } }) [] := by decide

theorem test_decode_pmovsxbd : decode .m64 [0x66, 0x0F, 0x38, 0x21, 0xCA] =
    .ok (.pmovsxbd { pfx := [.opSize], rex := none, reg := 1, rm := { regRM with rm := 2 } }) [] := by decide

theorem test_decode_pmovsxbq : decode .m64 [0x66, 0x0F, 0x38, 0x22, 0xE0] =
    .ok (.pmovsxbq { pfx := [.opSize], rex := none, reg := 4, rm := { regRM with rm := 0 } }) [] := by decide

theorem test_decode_pmovsxwd : decode .m64 [0x66, 0x0F, 0x38, 0x23, 0xD1] =
    .ok (.pmovsxwd { pfx := [.opSize], rex := none, reg := 2, rm := { regRM with rm := 1 } }) [] := by decide

theorem test_decode_pmovsxwq : decode .m64 [0x66, 0x0F, 0x38, 0x24, 0xCA] =
    .ok (.pmovsxwq { pfx := [.opSize], rex := none, reg := 1, rm := { regRM with rm := 2 } }) [] := by decide

theorem test_decode_pmovsxdq : decode .m64 [0x66, 0x0F, 0x38, 0x25, 0xDA] =
    .ok (.pmovsxdq { pfx := [.opSize], rex := none, reg := 3, rm := { regRM with rm := 2 } }) [] := by decide

theorem test_decode_vpmovsxbwXmm : decode .m64 [0xC4, 0xE2, 0x79, 0x20, 0xC0] =
    .ok (.vpmovsxbwXmm { plainVex with reg := 0, rm := { regRM with rm := 0 } }) [] := by decide

theorem test_decode_vpmovsxbdXmm : decode .m64 [0xC4, 0xE2, 0x79, 0x21, 0xCA] =
    .ok (.vpmovsxbdXmm { plainVex with reg := 1, rm := { regRM with rm := 2 } }) [] := by decide

theorem test_decode_vpmovsxbqXmm : decode .m64 [0xC4, 0xE2, 0x79, 0x22, 0x5F, 0xFF] =
    .ok (.vpmovsxbqXmm { plainVex with reg := 3, rm := ⟨1, 7, none, .d8 0xFF⟩ }) [] := by decide

theorem test_decode_vpmovsxwdXmm : decode .m64 [0xC4, 0xE2, 0x79, 0x23, 0xCA] =
    .ok (.vpmovsxwdXmm { plainVex with reg := 1, rm := { regRM with rm := 2 } }) [] := by decide

theorem test_decode_vpmovsxwqXmm : decode .m64 [0xC4, 0xE2, 0x79, 0x24, 0xCA] =
    .ok (.vpmovsxwqXmm { plainVex with reg := 1, rm := { regRM with rm := 2 } }) [] := by decide

theorem test_decode_vpmovsxdqXmm : decode .m64 [0xC4, 0xE2, 0x79, 0x25, 0xCA] =
    .ok (.vpmovsxdqXmm { plainVex with reg := 1, rm := { regRM with rm := 2 } }) [] := by decide

theorem test_decode_vpmovsxbwYmm : decode .m64 [0xC4, 0xE2, 0x7D, 0x20, 0xC0] =
    .ok (.vpmovsxbwYmm { plainVex with reg := 0, rm := { regRM with rm := 0 } }) [] := by decide

theorem test_decode_vpmovsxbdYmm : decode .m64 [0xC4, 0xE2, 0x7D, 0x21, 0xCA] =
    .ok (.vpmovsxbdYmm { plainVex with reg := 1, rm := { regRM with rm := 2 } }) [] := by decide

theorem test_decode_vpmovsxbqYmm : decode .m64 [0xC4, 0xE2, 0x7D, 0x22, 0xCA] =
    .ok (.vpmovsxbqYmm { plainVex with reg := 1, rm := { regRM with rm := 2 } }) [] := by decide

theorem test_decode_vpmovsxwdYmm : decode .m64 [0xC4, 0xE2, 0x7D, 0x23, 0xCA] =
    .ok (.vpmovsxwdYmm { plainVex with reg := 1, rm := { regRM with rm := 2 } }) [] := by decide

theorem test_decode_vpmovsxwqYmm : decode .m64 [0xC4, 0x62, 0x7D, 0x24, 0x4C, 0x48, 0x08] =
    .ok (.vpmovsxwqYmm { plainVex with r := true, reg := 1, rm := ⟨1, 4, some ⟨1, 1, 0⟩, .d8 8⟩ }) [] := by decide

theorem test_decode_vpmovsxdqYmm : decode .m64 [0xC4, 0x02, 0x7D, 0x25, 0xBC, 0xF7, 0x78, 0x56, 0x34, 0x12] =
    .ok (.vpmovsxdqYmm { plainVex with r := true, x := true, b := true, reg := 7, rm := ⟨2, 4, some ⟨3, 6, 7⟩, .d32 0x12345678⟩ })
      [] := by decide

/-! ## Decoding: the table of 95_test_vectors.md section 5 -/

/-- The row of an instruction: `none` for a legacy row, else `VEX.L`; and its element pair. -/
def rowOf : Instr → Option Bool × Pair
  | .pmovsxbw _ => (none, .bw)
  | .pmovsxbd _ => (none, .bd)
  | .pmovsxbq _ => (none, .bq)
  | .pmovsxwd _ => (none, .wd)
  | .pmovsxwq _ => (none, .wq)
  | .pmovsxdq _ => (none, .dq)
  | .vpmovsxbwXmm _ => (some false, .bw)
  | .vpmovsxbdXmm _ => (some false, .bd)
  | .vpmovsxbqXmm _ => (some false, .bq)
  | .vpmovsxwdXmm _ => (some false, .wd)
  | .vpmovsxwqXmm _ => (some false, .wq)
  | .vpmovsxdqXmm _ => (some false, .dq)
  | .vpmovsxbwYmm _ => (some true, .bw)
  | .vpmovsxbdYmm _ => (some true, .bd)
  | .vpmovsxbqYmm _ => (some true, .bq)
  | .vpmovsxwdYmm _ => (some true, .wd)
  | .vpmovsxwqYmm _ => (some true, .wq)
  | .vpmovsxdqYmm _ => (some true, .dq)

/-- The outcome of R83: row, destination, source, length. -/
def decodesTo (mode : Mode) (bs : List Byte) (row : Option Bool × Pair) (dst : VReg) (src : Src) (len : Nat) : Bool :=
  match decode mode (bs ++ [0xAA, 0x55]) with
  | .ok i rest => rowOf i == row && instrForm mode i == ⟨dst, src, len⟩ && rest == [0xAA, 0x55]
  | _ => false

/-- The outcome is a refusal. -/
def isRefused (mode : Mode) (bs : List Byte) : Bool :=
  match decode mode (bs ++ [0, 0, 0, 0, 0, 0]) with
  | .refused _ => true
  | _ => false

/-- The outcome is #UD. -/
def isUndefined (mode : Mode) (bs : List Byte) : Bool :=
  match decode mode (bs ++ [0, 0, 0, 0, 0, 0]) with
  | .undefinedOpcode => true
  | _ => false

theorem test_decode_register_forms :
    decodesTo .m64 [0x66, 0x0F, 0x38, 0x20, 0xC8] (none, .bw) 1 (.reg 0) 5 = true ∧
    decodesTo .m32 [0x66, 0x0F, 0x38, 0x20, 0xC8] (none, .bw) 1 (.reg 0) 5 = true ∧
    decodesTo .m64 [0x66, 0x45, 0x0F, 0x38, 0x20, 0xFF] (none, .bw) 15 (.reg 15) 6 = true ∧
    decodesTo .m64 [0x66, 0x48, 0x0F, 0x38, 0x20, 0xC8] (none, .bw) 1 (.reg 0) 6 = true ∧
    decodesTo .m32 [0xC4, 0xE2, 0x79, 0x20, 0xC0] (some false, .bw) 0 (.reg 0) 5 = true ∧
    decodesTo .m64 [0xC4, 0xE2, 0xF9, 0x20, 0xC0] (some false, .bw) 0 (.reg 0) 5 = true ∧
    decodesTo .m64 [0xC4, 0xE2, 0x7D, 0x20, 0xC0] (some true, .bw) 0 (.reg 0) 5 = true ∧
    decodesTo .m64 [0xC4, 0x42, 0x79, 0x20, 0xFF] (some false, .bw) 15 (.reg 15) 5 = true ∧
    decodesTo .m64 [0xC4, 0xC2, 0x79, 0x20, 0xC0] (some false, .bw) 0 (.reg 8) 5 = true ∧
    decodesTo .m32 [0xC4, 0xC2, 0x79, 0x20, 0xC0] (some false, .bw) 0 (.reg 0) 5 = true ∧
    decodesTo .m64 [0xC4, 0xC2, 0x79, 0x20, 0xC8] (some false, .bw) 1 (.reg 8) 5 = true := by decide

theorem test_decode_memory_forms_m64 :
    decodesTo .m64 [0x66, 0x0F, 0x38, 0x20, 0x04, 0x24] (none, .bw) 0 (.mem ⟨.a64, .ss, some 4, none, 1, 0, false⟩) 6 = true ∧
    decodesTo .m64 [0x66, 0x0F, 0x38, 0x20, 0x45, 0x00] (none, .bw) 0 (.mem ⟨.a64, .ss, some 5, none, 1, 0, false⟩) 6 = true ∧
    decodesTo .m64 [0x66, 0x41, 0x0F, 0x38, 0x20, 0x04, 0x24] (none, .bw) 0 (.mem ⟨.a64, .ds, some 12, none, 1, 0, false⟩) 7 = true ∧
    decodesTo .m64 [0x66, 0x41, 0x0F, 0x38, 0x20, 0x45, 0x00] (none, .bw) 0 (.mem ⟨.a64, .ds, some 13, none, 1, 0, false⟩) 7 = true ∧
    decodesTo .m64 [0x66, 0x0F, 0x38, 0x20, 0x04, 0x25, 0x00, 0x10, 0x00, 0x00] (none, .bw) 0 (.mem ⟨.a64, .ds, none, none, 1, 4096, false⟩) 10 = true ∧
    decodesTo .m64 [0x66, 0x0F, 0x38, 0x20, 0x05, 0x00, 0x10, 0x00, 0x00] (none, .bw) 0 (.mem ⟨.a64, .ds, none, none, 1, 4096, true⟩) 9 = true ∧
    decodesTo .m64 [0x66, 0x42, 0x0F, 0x38, 0x20, 0x14, 0x20] (none, .bw) 2 (.mem ⟨.a64, .ds, some 0, some 12, 1, 0, false⟩) 7 = true ∧
    decodesTo .m64 [0x66, 0x0F, 0x38, 0x20, 0x14, 0x20] (none, .bw) 2 (.mem ⟨.a64, .ds, some 0, none, 1, 0, false⟩) 6 = true ∧
    decodesTo .m64 [0x66, 0x0F, 0x38, 0x24, 0x6C, 0xB3, 0x80] (none, .wq) 5 (.mem ⟨.a64, .ds, some 3, some 6, 4, -128, false⟩) 7 = true := by decide

theorem test_decode_prefixed_forms_m64 :
    decodesTo .m64 [0x64, 0x66, 0x0F, 0x38, 0x20, 0x00] (none, .bw) 0 (.mem ⟨.a64, .fs, some 0, none, 1, 0, false⟩) 6 = true ∧
    decodesTo .m64 [0x66, 0x64, 0x0F, 0x38, 0x20, 0x00] (none, .bw) 0 (.mem ⟨.a64, .fs, some 0, none, 1, 0, false⟩) 6 = true ∧
    decodesTo .m64 [0x36, 0x66, 0x0F, 0x38, 0x20, 0x00] (none, .bw) 0 (.mem ⟨.a64, .ds, some 0, none, 1, 0, false⟩) 6 = true ∧
    decodesTo .m64 [0x67, 0x66, 0x0F, 0x38, 0x20, 0x00] (none, .bw) 0 (.mem ⟨.a32, .ds, some 0, none, 1, 0, false⟩) 6 = true ∧
    decodesTo .m64 [0xC4, 0x02, 0x7D, 0x25, 0xBC, 0xF7, 0x78, 0x56, 0x34, 0x12] (some true, .dq) 15 (.mem ⟨.a64, .ds, some 15, some 14, 8, 305419896, false⟩) 10 = true ∧
    decodesTo .m64 [0xC4, 0xE2, 0x79, 0x22, 0x5F, 0xFF] (some false, .bq) 3 (.mem ⟨.a64, .ds, some 7, none, 1, -1, false⟩) 6 = true ∧
    decodesTo .m64 [0x67, 0xC4, 0xE2, 0x79, 0x20, 0x00] (some false, .bw) 0 (.mem ⟨.a32, .ds, some 0, none, 1, 0, false⟩) 6 = true ∧
    decodesTo .m64 [0x65, 0xC4, 0xE2, 0x79, 0x20, 0x00] (some false, .bw) 0 (.mem ⟨.a64, .gs, some 0, none, 1, 0, false⟩) 6 = true := by decide

theorem test_decode_memory_forms_m32 :
    decodesTo .m32 [0x66, 0x0F, 0x38, 0x20, 0x05, 0x00, 0x10, 0x00, 0x00] (none, .bw) 0 (.mem ⟨.a32, .ds, none, none, 1, 4096, false⟩) 9 = true ∧
    decodesTo .m32 [0x67, 0x66, 0x0F, 0x38, 0x20, 0x00] (none, .bw) 0 (.mem ⟨.a16, .ds, some 3, some 6, 1, 0, false⟩) 6 = true ∧
    decodesTo .m32 [0x67, 0x66, 0x0F, 0x38, 0x21, 0x48, 0xFE] (none, .bd) 1 (.mem ⟨.a16, .ds, some 3, some 6, 1, -2, false⟩) 7 = true ∧
    decodesTo .m32 [0x67, 0x66, 0x0F, 0x38, 0x22, 0x56, 0x00] (none, .bq) 2 (.mem ⟨.a16, .ss, some 5, none, 1, 0, false⟩) 7 = true ∧
    decodesTo .m32 [0x67, 0x66, 0x0F, 0x38, 0x22, 0x06, 0x34, 0x12] (none, .bq) 0 (.mem ⟨.a16, .ds, none, none, 1, 4660, false⟩) 8 = true ∧
    decodesTo .m32 [0xC4, 0xE2, 0x79, 0x23, 0x7D, 0x08] (some false, .wd) 7 (.mem ⟨.a32, .ss, some 5, none, 1, 8, false⟩) 6 = true ∧
    decodesTo .m32 [0x26, 0x66, 0x0F, 0x38, 0x25, 0x1F] (none, .dq) 3 (.mem ⟨.a32, .es, some 7, none, 1, 0, false⟩) 6 = true ∧
    decodesTo .m32 [0x36, 0x66, 0x0F, 0x38, 0x20, 0x00] (none, .bw) 0 (.mem ⟨.a32, .ss, some 0, none, 1, 0, false⟩) 6 = true := by decide

/-- In `M64` the override 36 (SS) is ignored by R70; the row of 95_test_vectors.md prints SS here: log 23. -/
theorem test_decode_ignored_override_m64 :
    decodesTo .m64 [0x36, 0x67, 0x66, 0x0F, 0x38, 0x25, 0x84, 0x88, 0x78, 0x56, 0x34, 0x12] (none, .dq) 0
      (.mem ⟨.a32, .ds, some 0, some 1, 4, 305419896, false⟩) 12 = true := by decide

theorem test_decode_refusals_m64 : [
    [0x48, 0x66, 0x0F, 0x38, 0x20, 0xC8],
    [0xF3, 0x66, 0x0F, 0x38, 0x20, 0xC0],
    [0x0F, 0x38, 0x20, 0xC0],
    [0x66, 0x66, 0x0F, 0x38, 0x20, 0xC0],
    [0x2E, 0x3E, 0x66, 0x0F, 0x38, 0x20, 0x00],
    [0x66, 0x0F, 0x38, 0x1F, 0xC0],
    [0x66, 0x0F, 0x38, 0x26, 0xC0],
    [0x66, 0x0F, 0x38, 0x30, 0xC0],
    [0xC4, 0xE2, 0x78, 0x20, 0xC0],
    [0xC4, 0xE2, 0x7A, 0x20, 0xC0],
    [0xC4, 0xE1, 0x79, 0x20, 0xC0],
    [0xC4, 0xE3, 0x79, 0x20, 0xC0],
    [0xC4, 0xE2, 0x79, 0x26, 0xC0],
    [0xC5, 0xF9, 0x20, 0xC0],
    [0x62, 0xF2, 0x7D, 0x08, 0x20, 0xC0]].all (isRefused .m64) = true := by decide

theorem test_decode_refusals_m32 : [[0x66, 0x45, 0x0F, 0x38, 0x20, 0xFF], [0xC4, 0x62, 0x79, 0x20, 0xC0]].all (isRefused .m32) = true := by decide

theorem test_decode_undefined_m64 : [
    [0xC4, 0xE2, 0x71, 0x20, 0xC0],
    [0xC4, 0xE2, 0x39, 0x20, 0xC0],
    [0xC4, 0xE2, 0x01, 0x20, 0xC0],
    [0x66, 0xC4, 0xE2, 0x79, 0x20, 0xC0],
    [0xF3, 0xC4, 0xE2, 0x79, 0x20, 0xC0],
    [0xF2, 0xC4, 0xE2, 0x79, 0x20, 0xC0],
    [0xF0, 0xC4, 0xE2, 0x79, 0x20, 0x00],
    [0x40, 0xC4, 0xE2, 0x79, 0x20, 0xC0],
    [0xF0, 0x66, 0x0F, 0x38, 0x20, 0x00],
    [0xF0, 0x66, 0x0F, 0x38, 0x20, 0xC0]].all (isUndefined .m64) = true := by decide

theorem test_decode_undefined_m32 : [[0xC4, 0xE2, 0x71, 0x20, 0xC0], [0xC4, 0xE2, 0x39, 0x20, 0xC0], [0xC4, 0xE2, 0x01, 0x20, 0xC0]].all (isUndefined .m32) = true := by decide

/-- The longest instruction that executes has 13 bytes (R76), and the encoder gives back its bytes. -/
theorem test_longest_instruction :
    (match decode .m64 [0x64, 0x67, 0x66, 0x4F, 0x0F, 0x38, 0x20, 0x84, 0x88, 0x78, 0x56, 0x34, 0x12] with
      | .ok i rest => instrLength i == 13 && rest == [] &&
          encode i == [0x64, 0x67, 0x66, 0x4F, 0x0F, 0x38, 0x20, 0x84, 0x88, 0x78, 0x56, 0x34, 0x12]
      | _ => false) = true := by decide

/-- The words of the opcode table: ModRM 0 and, for a VEX row, stored vvvv 1111b. -/
theorem test_decodeTableWord : decodeTableWord 40 0x0020380F66 =
      some (.pmovsxbw { plainLegacy with reg := 0, rm := ⟨0, 0, none, .none⟩ }) ∧
    decodeTableWord 40 0x00257DE2C4 = some (.vpmovsxdqYmm { plainVex with rm := ⟨0, 0, none, .none⟩ }) ∧
    decodeTableWord 40 0x00257503C4 = none := by decide

/-! ## Execution: the vectors V19 to V36 of 95_test_vectors.md section 3 -/

/-- A launched machine in `M64`, with everything enabled (95_test_vectors.md, introduction). -/
def launched : State := launch State.reset

/-- The same in `M32`. -/
def launched32 : State := { launched with cfg := { launched.cfg with mode := .m32 } }

/-- All bytes A5. -/
def a5 : Vec := 0xA5A5A5A5A5A5A5A5A5A5A5A5A5A5A5A5A5A5A5A5A5A5A5A5A5A5A5A5A5A5A5A5

/-- Pattern B, with an upper half that no form reads. -/
def patternB : Vec := 0xDEADBEEFDEADBEEFDEADBEEFDEADBEEF7FFF800080FFFF00FE81FE0081FF7F80

/-- Before V19 to V36: the destination V[1] holds A5 in all bytes, the source V[2] pattern B. -/
def vectorState : State := (launched.setV 1 a5).setV 2 patternB

/-- `reg` 1, register source 2. -/
def legacy12 : LegacyEnc := { plainLegacy with rm := { regRM with rm := 2 } }

/-- `reg` 1, register source 2. -/
def vex12 : VexEnc := { plainVex with reg := 1, rm := { regRM with rm := 2 } }

/-- Register 1 after a completed instruction. -/
def v1After (o : Host.Outcome State Fault Refusal) : Option Vec :=
  match o with
  | .next t => some (t.regV 1)
  | _ => none

/-- V19 -/
theorem test_exec_pmovsxbw : v1After (exec (.pmovsxbw legacy12) vectorState) = some 0xA5A5A5A5A5A5A5A5A5A5A5A5A5A5A5A5FFFEFF81FFFE0000FF81FFFF007FFF80 := by decide

/-- V20 -/
theorem test_exec_pmovsxbd : v1After (exec (.pmovsxbd legacy12) vectorState) = some 0xA5A5A5A5A5A5A5A5A5A5A5A5A5A5A5A5FFFFFF81FFFFFFFF0000007FFFFFFF80 := by decide

/-- V21 -/
theorem test_exec_pmovsxbq : v1After (exec (.pmovsxbq legacy12) vectorState) = some 0xA5A5A5A5A5A5A5A5A5A5A5A5A5A5A5A5000000000000007FFFFFFFFFFFFFFF80 := by decide

/-- V22 -/
theorem test_exec_pmovsxwd : v1After (exec (.pmovsxwd legacy12) vectorState) = some 0xA5A5A5A5A5A5A5A5A5A5A5A5A5A5A5A5FFFFFE81FFFFFE00FFFF81FF00007F80 := by decide

/-- V23 -/
theorem test_exec_pmovsxwq : v1After (exec (.pmovsxwq legacy12) vectorState) = some 0xA5A5A5A5A5A5A5A5A5A5A5A5A5A5A5A5FFFFFFFFFFFF81FF0000000000007F80 := by decide

/-- V24 -/
theorem test_exec_pmovsxdq : v1After (exec (.pmovsxdq legacy12) vectorState) = some 0xA5A5A5A5A5A5A5A5A5A5A5A5A5A5A5A5FFFFFFFFFE81FE00FFFFFFFF81FF7F80 := by decide

/-- V25 -/
theorem test_exec_vpmovsxbwXmm : v1After (exec (.vpmovsxbwXmm vex12) vectorState) = some 0xFFFEFF81FFFE0000FF81FFFF007FFF80 := by decide

/-- V26 -/
theorem test_exec_vpmovsxbdXmm : v1After (exec (.vpmovsxbdXmm vex12) vectorState) = some 0xFFFFFF81FFFFFFFF0000007FFFFFFF80 := by decide

/-- V27 -/
theorem test_exec_vpmovsxbqXmm : v1After (exec (.vpmovsxbqXmm vex12) vectorState) = some 0x000000000000007FFFFFFFFFFFFFFF80 := by decide

/-- V28 -/
theorem test_exec_vpmovsxwdXmm : v1After (exec (.vpmovsxwdXmm vex12) vectorState) = some 0xFFFFFE81FFFFFE00FFFF81FF00007F80 := by decide

/-- V29 -/
theorem test_exec_vpmovsxwqXmm : v1After (exec (.vpmovsxwqXmm vex12) vectorState) = some 0xFFFFFFFFFFFF81FF0000000000007F80 := by decide

/-- V30 -/
theorem test_exec_vpmovsxdqXmm : v1After (exec (.vpmovsxdqXmm vex12) vectorState) = some 0xFFFFFFFFFE81FE00FFFFFFFF81FF7F80 := by decide

/-- V31 -/
theorem test_exec_vpmovsxbwYmm : v1After (exec (.vpmovsxbwYmm vex12) vectorState) = some 0x007FFFFFFF800000FF80FFFFFFFF0000FFFEFF81FFFE0000FF81FFFF007FFF80 := by decide

/-- V32 -/
theorem test_exec_vpmovsxbdYmm : v1After (exec (.vpmovsxbdYmm vex12) vectorState) = some 0xFFFFFFFEFFFFFF81FFFFFFFE00000000FFFFFF81FFFFFFFF0000007FFFFFFF80 := by decide

/-- V33 -/
theorem test_exec_vpmovsxbqYmm : v1After (exec (.vpmovsxbqYmm vex12) vectorState) = some 0xFFFFFFFFFFFFFF81FFFFFFFFFFFFFFFF000000000000007FFFFFFFFFFFFFFF80 := by decide

/-- V34 -/
theorem test_exec_vpmovsxwdYmm : v1After (exec (.vpmovsxwdYmm vex12) vectorState) = some 0x00007FFFFFFF8000FFFF80FFFFFFFF00FFFFFE81FFFFFE00FFFF81FF00007F80 := by decide

/-- V35 -/
theorem test_exec_vpmovsxwqYmm : v1After (exec (.vpmovsxwqYmm vex12) vectorState) = some 0xFFFFFFFFFFFFFE81FFFFFFFFFFFFFE00FFFFFFFFFFFF81FF0000000000007F80 := by decide

/-- V36 -/
theorem test_exec_vpmovsxdqYmm : v1After (exec (.vpmovsxdqYmm vex12) vectorState) = some 0x000000007FFF8000FFFFFFFF80FFFF00FFFFFFFFFE81FE00FFFFFFFF81FF7F80 := by decide

/-! ## Execution: same register (K1 to K3), memory operands, addresses -/

/-- V[1] before K1 to K3. -/
def sameRegState : State :=
  launched.setV 1 0x111111111111111111111111111111110F0E0D0C0B0A09088081FE7F01FF0080

/-- K1 -/
theorem test_same_register_legacy :
    v1After (exec (.pmovsxbw { plainLegacy with rm := { regRM with rm := 1 } }) sameRegState) =
      some 0x11111111111111111111111111111111FF80FF81FFFE007F0001FFFF0000FF80 := by decide

/-- K2 -/
theorem test_same_register_vex128 :
    v1After (exec (.vpmovsxbwXmm { plainVex with reg := 1, rm := { regRM with rm := 1 } }) sameRegState) =
      some 0xFF80FF81FFFE007F0001FFFF0000FF80 := by decide

/-- K3 -/
theorem test_same_register_vex256 :
    v1After (exec (.vpmovsxbwYmm { plainVex with reg := 1, rm := { regRM with rm := 1 } }) sameRegState) =
      some 0x000F000E000D000C000B000A00090008FF80FF81FFFE007F0001FFFF0000FF80 := by decide

/-- A state with bytes at an address. -/
def withBytes (s : State) (a : Word) (bs : List Byte) : State :=
  { s with mem := storeBytes s.cfg.mode s.mem a bs }

/-- A state with a general register set. -/
def withReg (s : State) (r : GReg) (v : Word) : State :=
  { s with gpr := s.gpr.set r v }

/-- A state with `pc` at 1000h and an instruction there. -/
def withCode (s : State) (bs : List Byte) : State :=
  withBytes { s with pc := 0x1000 } 0x1000 bs

/-- Register and `pc` after a step. -/
def after (o : Host.Outcome State Fault Refusal) (r : VReg) : Option (Vec × Word) :=
  match o with
  | .next t => some (t.regV r, t.pc)
  | _ => none

/-- The fault of a step. -/
def faultOf (o : Host.Outcome State Fault Refusal) : Option Fault :=
  match o with
  | .fault e => some e
  | _ => none

/-- The refusal of a step. -/
def refusalOf (o : Host.Outcome State Fault Refusal) : Option Refusal :=
  match o with
  | .refused r => some r
  | _ => none

/-- K5: `pmovsxwd xmm1, qword ptr [rax]` -/
theorem test_step_memory_words :
    after (step (withCode (withBytes (withReg launched 0 0x2000) 0x2000 [0x01, 0x00, 0xFF, 0xFF, 0x00, 0x80, 0xFF, 0x7F]) [0x66, 0x0F, 0x38, 0x23, 0x08])) 1 =
      some (0x00007FFFFFFF8000FFFFFFFF00000001, 0x1005) := by decide

/-- K8: `pmovsxwq xmm5, dword ptr [rbx+rsi*4-0x80]`, bytes at FC0h -/
theorem test_step_sib_disp8 :
    after (step (withCode (withBytes (withReg (withReg launched 3 0x1000) 6 0x10) 0xFC0 [0x00, 0x80, 0xFF, 0x7F]) [0x66, 0x0F, 0x38, 0x24, 0x6C, 0xB3, 0x80])) 5 =
      some (0x0000000000007FFFFFFFFFFFFFFF8000, 0x1007) := by decide

/-- K9: `pmovsxbw xmm0, [eax]`, the upper half of rax is not used -/
theorem test_step_address_size_32 :
    after (step (withCode (withBytes (withReg launched 0 0x0000000100002000) 0x2000 [0x10, 0x32, 0x54, 0x76, 0x98, 0xBA, 0xDC, 0xFE]) [0x67, 0x66, 0x0F, 0x38, 0x20, 0x00])) 0 =
      some (0xFFFEFFDCFFBAFF980076005400320010, 0x1006) := by decide

/-- K10: `pmovsxbq xmm0, [eax+1]`, eax = FFFFFFFFh, reads linear 0 -/
theorem test_step_effective_address_wraps :
    after (step (withCode (withBytes (withReg launched 0 0xFFFFFFFF) 0 [0x80, 0x7F]) [0x67, 0x66, 0x0F, 0x38, 0x22, 0x40, 0x01])) 0 =
      some (0x000000000000007FFFFFFFFFFFFFFF80, 0x1007) := by decide

/-- K12 in `M64`, at pc = 1000h: `ea = 1009h + 1000h = 2009h` -/
theorem test_step_rip_relative :
    after (step (withCode (withBytes launched 0x2009 [0x01, 0x02, 0x03, 0x04, 0x05, 0x06, 0x07, 0x88]) [0x66, 0x0F, 0x38, 0x20, 0x05, 0x00, 0x10, 0x00, 0x00])) 0 =
      some (0xFF880007000600050004000300020001, 0x1009) := by decide

/-- K17: `pmovsxbw xmm0, fs:[rax]`, FS base 7000h -/
theorem test_step_fs_base :
    after (step (withCode (withBytes { (withReg launched 0 0x10) with segBase := { launched.segBase with fs := 0x7000 } } 0x7010 [0x80, 0x7F, 0xFF, 0x01, 0x00, 0xFE, 0x81, 0x7E]) [0x64, 0x66, 0x0F, 0x38, 0x20, 0x00])) 0 =
      some (0x007EFF81FFFE00000001FFFF007FFF80, 0x1006) := by decide

/-- P2 step 2: `vpmovsxwq ymm9, qword ptr [rax+rcx*2+8]` -/
theorem test_step_vex256_sib :
    after (step (withCode (withBytes (withReg (withReg launched 0 0x2000) 1 4) 0x2010 [0x00, 0x80, 0xFF, 0x7F, 0xFF, 0xFF, 0x01, 0x00]) [0xC4, 0x62, 0x7D, 0x24, 0x4C, 0x48, 0x08])) 9 =
      some (0x0000000000000001FFFFFFFFFFFFFFFF0000000000007FFFFFFFFFFFFFFF8000, 0x1007) := by decide

/-- P4 step 1 with an operand at 3001h: no alignment is needed -/
theorem test_step_m128_unaligned :
    after (step (withCode (withBytes (withReg launched 3 0x3001) 0x3001 [0x80, 0x7F, 0xFF, 0x01, 0x00, 0xFE, 0x81, 0x7E, 0x10, 0x90, 0x20, 0xA0, 0x30, 0xB0, 0x40, 0xC0]) [0xC4, 0xE2, 0x7D, 0x20, 0x2B])) 5 =
      some (0xFFC00040FFB00030FFA00020FF900010007EFF81FFFE00000001FFFF007FFF80, 0x1005) := by decide

/-- K12 in `M32`: absolute address 1800h -/
theorem test_step_m32_absolute :
    after (step (withCode (withBytes launched32 0x1800 [0x01, 0x02, 0x03, 0x04, 0x05, 0x06, 0x07, 0x88]) [0x66, 0x0F, 0x38, 0x20, 0x05, 0x00, 0x18, 0x00, 0x00])) 0 =
      some (0xFF880007000600050004000300020001, 0x1009) := by decide

/-- K13: `pmovsxbd xmm1, [bx+si-2]` reads 0013h -/
theorem test_step_m32_bx_si :
    after (step (withCode (withBytes (withReg (withReg launched32 3 0x12340010) 6 5) 0x13 [0xFF, 0x80, 0x7F, 0x01]) [0x67, 0x66, 0x0F, 0x38, 0x21, 0x48, 0xFE])) 1 =
      some (0x000000010000007FFFFFFF80FFFFFFFF, 0x1007) := by decide

/-- `vpmovsxwd xmm7, qword ptr [ebp+8]` through SS with base FFFFF000h: the linear address is reduced mod 2^32 -/
theorem test_step_m32_ss_base :
    after (step (withCode (withBytes { (withReg launched32 5 0x13000) with segBase := { launched.segBase with ss := 0xFFFFF000 } } 0x12008 [0x00, 0x80, 0xFF, 0x7F, 0x01, 0x00, 0xFF, 0xFF]) [0xC4, 0xE2, 0x79, 0x23, 0x7D, 0x08])) 7 =
      some (0xFFFFFFFF0000000100007FFFFFFF8000, 0x1006) := by decide

/-! ## Faults and refusals (95_test_vectors.md sections 4 and 6) -/

/-- K14: a 4-byte operand at FFFFh in 16-bit addressing runs past 2^16. -/
theorem test_step_operand_wraps :
    refusalOf (step (withCode (withReg launched32 6 1) [0x67, 0x66, 0x0F, 0x38, 0x21, 0x48, 0xFE])) =
      some .operandWraps := by decide

/-- Data from 5000h upward is not readable: a page fault with code 4. -/
def pageFaultAt5000 : State :=
  { launched with cfg := { launched.cfg with memCheck :=
      { rules := [{ kind := some .data, seg := none, cpl := none, first := 0x5000, last := 0x5FFF, verdict := .page 4 }],
        rest := none } } }

/-- K6: two bytes that end at the last readable byte are read. -/
theorem test_step_ends_at_page_end :
    after (step (withCode (withBytes (withReg pageFaultAt5000 0 0x4FFE) 0x4FFE [0x80, 0x7F]) [0x66, 0x0F, 0x38, 0x22, 0x08])) 1 =
      some (0x000000000000007FFFFFFFFFFFFFFF80, 0x1005) := by decide

/-- K7, X15: one byte further the operand faults as a whole. -/
theorem test_step_page_fault :
    faultOf (step (withCode (withReg pageFaultAt5000 0 0x4FFF) [0x66, 0x0F, 0x38, 0x22, 0x08])) = some (.pf 4) := by decide

/-- X16: a non-canonical operand is #GP(0), through SS #SS(0) (K18: a base of rsp is through SS). -/
theorem test_step_non_canonical :
    faultOf (step (withCode (withReg launched 0 0x0000800000000000) [0x66, 0x0F, 0x38, 0x20, 0x00])) = some .gp ∧
    faultOf (step (withCode (withReg launched 4 0x0000800000000000) [0x66, 0x0F, 0x38, 0x20, 0x04, 0x24])) = some .ss ∧
    faultOf (step (withCode (withReg launched 0 0x00007FFFFFFFFFF9) [0x66, 0x0F, 0x38, 0x20, 0x00])) = some .gp ∧
    faultOf (step (withCode (withReg launched 0 0x00007FFFFFFFFFF8) [0x66, 0x0F, 0x38, 0x20, 0x00])) = none := by decide

/-- Alignment checking enabled (X17). -/
def aligned : State :=
  { launched with cr0 := launched.cr0 ||| 0x40000, rflags := launched.rflags ||| 0x40000, cpl := 3 }

/-- X17, X18, X19: misaligned operands of 2, 4, 8 bytes are #AC(0); aligned ones and CPL 0 are not. -/
theorem test_step_alignment :
    faultOf (step (withCode (withReg aligned 0 0x2001) [0x66, 0x0F, 0x38, 0x22, 0x00])) = some .ac ∧
    faultOf (step (withCode (withReg aligned 0 0x2002) [0x66, 0x0F, 0x38, 0x22, 0x00])) = none ∧
    faultOf (step (withCode (withReg aligned 0 0x2002) [0x66, 0x0F, 0x38, 0x21, 0x00])) = some .ac ∧
    faultOf (step (withCode (withReg aligned 0 0x2004) [0x66, 0x0F, 0x38, 0x20, 0x00])) = some .ac ∧
    faultOf (step (withCode (withReg aligned 0 0x2008) [0x66, 0x0F, 0x38, 0x20, 0x00])) = none ∧
    faultOf (step (withCode (withReg { aligned with cpl := 0 } 0 0x2001) [0x66, 0x0F, 0x38, 0x22, 0x00])) = none ∧
    faultOf (step (withCode (withReg { aligned with rflags := 2 } 0 0x2001) [0x66, 0x0F, 0x38, 0x22, 0x00])) = none := by
  decide

/-- X20: whether a misaligned 16-byte operand raises is the free value. -/
theorem test_alignment_m128_open :
    alignmentFaults (withReg aligned 0 0x2008) 0x2008 16 = Config.misaligned16Raises 0 := rfl

/-- A configuration without a feature. -/
def withFlags (s : State) (sse41 avx avx2 : Bool) : State :=
  { s with cfg := { s.cfg with hasSse41 := sse41, hasAvx := avx, hasAvx2 := avx2 } }

/-- X1 to X5: #UD by encoding and by feature flag; VEX.128 needs AVX only. -/
theorem test_step_undefined :
    faultOf (step (withCode launched [0xC4, 0xE2, 0x71, 0x20, 0xC0])) = some .ud ∧
    faultOf (step (withCode (withFlags launched true true false) [0xC4, 0xE2, 0x7D, 0x20, 0xC0])) = some .ud ∧
    faultOf (step (withCode (withFlags launched true true false) [0xC4, 0xE2, 0x79, 0x20, 0xC0])) = none ∧
    faultOf (step (withCode (withFlags launched true false false) [0xC4, 0xE2, 0x79, 0x20, 0xC0])) = some .ud ∧
    faultOf (step (withCode (withFlags launched false false false) [0x66, 0x0F, 0x38, 0x20, 0xC0])) = some .ud := by decide

/-- X6 to X11: the enabling bits of one group are not consulted by the other. -/
theorem test_step_enabling_bits :
    faultOf (step (withCode { launched with cr4 := 0x40000 } [0x66, 0x0F, 0x38, 0x20, 0xC0])) = some .ud ∧
    faultOf (step (withCode { launched with cr4 := 0x40000 } [0xC4, 0xE2, 0x79, 0x20, 0xC0])) = none ∧
    faultOf (step (withCode { launched with cr0 := 4 } [0x66, 0x0F, 0x38, 0x20, 0xC0])) = some .ud ∧
    faultOf (step (withCode { launched with cr0 := 4 } [0xC4, 0xE2, 0x79, 0x20, 0xC0])) = none ∧
    faultOf (step (withCode { launched with cr4 := 0x200 } [0xC4, 0xE2, 0x79, 0x20, 0xC0])) = some .ud ∧
    faultOf (step (withCode { launched with cr4 := 0x200 } [0x66, 0x0F, 0x38, 0x20, 0xC0])) = none ∧
    faultOf (step (withCode { launched with xcr0 := 3 } [0xC4, 0xE2, 0x7D, 0x20, 0xC0])) = some .ud ∧
    faultOf (step (withCode { launched with xcr0 := 3 } [0x66, 0x0F, 0x38, 0x20, 0xC0])) = none := by decide

/-- X12 to X14: #NM, and #UD before it. -/
theorem test_step_device_not_available :
    faultOf (step (withCode { launched with cr0 := 8 } [0x66, 0x0F, 0x38, 0x20, 0xC0])) = some .nm ∧
    faultOf (step (withCode { launched with cr0 := 8 } [0xC4, 0xE2, 0x79, 0x20, 0xC0])) = some .nm ∧
    faultOf (step (withCode { launched with cr0 := 12 } [0x66, 0x0F, 0x38, 0x20, 0xC0])) = some .ud ∧
    faultOf (step (withCode { launched with cr0 := 8 } [0xC4, 0xE2, 0x71, 0x20, 0xC0])) = some .ud := by decide

/-- A byte sequence outside the family is refused with its bytes (R80); a byte that may not be fetched faults (R45). -/
theorem test_step_fetch :
    refusalOf (step (withCode launched [0x66, 0x0F, 0x38, 0x26, 0xC0])) =
      some (.undecoded .notInFamily [0x66, 0x0F, 0x38, 0x26, 0xC0, 0, 0, 0, 0, 0, 0, 0, 0, 0, 0]) ∧
    faultOf (step (withCode { launched with cfg := { launched.cfg with memCheck :=
      { rules := [⟨some .fetch, none, none, 0x1004, 0x1FFF, .page 0x14⟩], rest := none } } } [0x66, 0x0F, 0x38, 0x20, 0xC8])) =
      some (.pf 0x14) := by decide

/-- Device memory is refused (R42); an armed debug feature and a mode outside the spec are refused (U25, D2). -/
theorem test_step_outside_spec :
    refusalOf (step (withCode (withReg { launched with cfg := { launched.cfg with devices := [⟨0x2007, 0x2FFF⟩] } } 0 0x2000)
      [0x66, 0x0F, 0x38, 0x20, 0x00])) = some .deviceMemory ∧
    refusalOf (step { launched with cfg := { launched.cfg with debugArmed := true } }) = some .debugArmed ∧
    refusalOf (step State.reset) = some .modeOutsideSpec := by decide

/-- At `END` the run is final (R153), and the launch of a table word runs it as the first instruction. -/
theorem test_step_end_and_launch :
    after (step { launched with pc := 0x1000, cfg := { launched.cfg with endPc := some 0x1000 } }) 0 = some (0, 0x1000) ∧
    after (step (State.reset.withFetchWord 40 0x00257DE2C4)) 0 = some (0, 0xFFF5) ∧
    run 1 { launched with pc := 0x1000, cfg := { launched.cfg with endPc := some 0x1000 } } =
      .final { launched with pc := 0x1000, cfg := { launched.cfg with endPc := some 0x1000 } } := by decide

/-! ## Witnesses: concrete states and operands that meet the hypotheses of the obligations, named after them -/

/-- `pmovsxbw xmm1, [rax]` (in `M32` `[eax]`). -/
def legacyAtAx : LegacyEnc := { plainLegacy with rm := ⟨0, 0, none, .none⟩ }

/-- `vpmovsxbw xmm1, [rax]` and its siblings. -/
def vexAtAx : VexEnc := { plainVex with reg := 1, rm := ⟨0, 0, none, .none⟩ }

/-- The memory operand `[rax]` of `M64`. -/
def atRax : MemOp := ⟨.a64, .ds, some 0, none, 1, 0, false⟩

/-- The memory operand `[eax]` of `M32`. -/
def atEax : MemOp := ⟨.a32, .ds, some 0, none, 1, 0, false⟩

/-- Sixteen bytes of memory at 2000h, and x[0] = 2000h. -/
def memState : State :=
  withBytes (withReg launched 0 0x2000) 0x2000
    [0x80, 0x7F, 0xFF, 0x01, 0x00, 0xFE, 0x81, 0x7E, 0x10, 0x90, 0x20, 0xA0, 0x30, 0xB0, 0x40, 0xC0]

/-- The same in `M32`. -/
def memState32 : State := { memState with cfg := launched32.cfg }

/-- The sixteen bytes as a source value. -/
def memSource : Xmm := 0xC040B030A02090107E81FE0001FF7F80

/-- All enabled: CR0.EM = 0, CR0.TS = 0, OSFXSR = OSXSAVE = 1, XCR0 bits 2:1 = 11b, all features (R152). -/
theorem enabled_memState : Enabled .legacy memState ∧ Enabled .vex128 memState ∧ Enabled .vex256 memState ∧
    Enabled .legacy memState32 ∧ Enabled .vex128 memState32 ∧ Enabled .vex256 memState32 :=
  ⟨⟨.inl rfl, rfl, rfl, rfl, rfl⟩, ⟨.inl rfl, rfl, rfl, rfl, rfl, rfl⟩, ⟨.inl rfl, rfl, rfl, rfl, rfl, rfl⟩,
    ⟨.inr rfl, rfl, rfl, rfl, rfl⟩, ⟨.inr rfl, rfl, rfl, rfl, rfl, rfl⟩, ⟨.inr rfl, rfl, rfl, rfl, rfl, rfl⟩⟩

theorem enabled_vectorState : Enabled .legacy vectorState ∧ Enabled .vex128 vectorState ∧ Enabled .vex256 vectorState :=
  ⟨⟨.inl rfl, rfl, rfl, rfl, rfl⟩, ⟨.inl rfl, rfl, rfl, rfl, rfl, rfl⟩, ⟨.inl rfl, rfl, rfl, rfl, rfl, rfl⟩⟩

/-! ### Encoding -/

theorem witness_DecodeOfEncodeIsTheInstruction :
    (Instr.pmovsxdq ⟨[.seg .fs, .addrSize, .opSize], some ⟨true, true, true, true⟩, 7,
      ⟨2, 4, some ⟨3, 6, 7⟩, .d32 0x12345678⟩⟩).wf .m64 = true ∧
    (Instr.vpmovsxdqYmm { plainVex with r := true, x := true, b := true, w := true }).wf .m64 = true ∧
    (Instr.pmovsxbq { plainLegacy with pfx := [.addrSize, .opSize], rm := ⟨0, 6, none, .d16 0x1234⟩ }).wf .m32 = true := by
  decide

/-- Lengths 5, 13 (legacy) and 12 (VEX). -/
theorem witness_EncodeOfDecodeIsTheBytes :
    (∃ i, decode .m64 [0x66, 0x0F, 0x38, 0x20, 0xC8, 0x55] = .ok i [0x55] ∧ (instrForm .m64 i).len = 5) ∧
    (∃ i, decode .m64 [0x64, 0x67, 0x66, 0x4F, 0x0F, 0x38, 0x20, 0x84, 0x88, 0x78, 0x56, 0x34, 0x12] = .ok i [] ∧
      (instrForm .m64 i).len = 13) ∧
    (∃ i, decode .m64 [0x64, 0x67, 0xC4, 0xE2, 0x79, 0x20, 0x84, 0x88, 0x78, 0x56, 0x34, 0x12] = .ok i [] ∧
      (instrForm .m64 i).len = 12) :=
  ⟨⟨_, rfl, rfl⟩, ⟨_, rfl, rfl⟩, ⟨_, rfl, rfl⟩⟩

/-- The same hypothesis, of the length statement: length 5 of a VEX form. -/
theorem witness_DecodedLengthIsBounded :
    ∃ i, decode .m32 [0xC4, 0xE2, 0x79, 0x20, 0xC0] = .ok i [] ∧ (instrForm .m32 i).len = 5 := ⟨_, rfl, rfl⟩

/-- Fifteen bytes: the longest admitted sequence, which is #UD by its F0 (R76). -/
theorem witness_FifteenBytesDecideTheDecoder :
    15 ≤ [0x64, 0x67, 0x66, 0xF0, 0xF3, 0x4F, 0xC4, 0xE2, 0x79, 0x20, 0x84, 0x78, 0x56, 0x34, (0x12 : Byte)].length := by
  decide

theorem witness_ReservedVvvvRaisesUndefinedOpcode :
    (withCode launched [0x65, 0xC4, 0x02, 0x75, 0x23, 0xC0]).cfg.debugArmed = false ∧
    ModeInSpec (withCode launched [0x65, 0xC4, 0x02, 0x75, 0x23, 0xC0]) ∧
    (withCode launched [0x65, 0xC4, 0x02, 0x75, 0x23, 0xC0]).cfg.endPc ≠
      some (withCode launched [0x65, 0xC4, 0x02, 0x75, 0x23, 0xC0]).pc ∧
    distinctClasses [.seg .gs] = true ∧
    (0x02 : Byte).extractLsb' 0 5 = 2#5 ∧ (0x75 : Byte).extractLsb' 0 2 = 1#2 ∧ (0x75 : Byte).extractLsb' 3 4 ≠ 15#4 ∧
    (fetchWindow (withCode launched [0x65, 0xC4, 0x02, 0x75, 0x23, 0xC0])).1 =
      [Pfx.seg .gs].map Pfx.byte ++ (0xC4 :: 0x02 :: 0x75 :: Pair.wd.opcode :: [0xC0, 0, 0, 0, 0, 0, 0, 0, 0, 0]) :=
  ⟨rfl, .inl rfl, by decide, rfl, rfl, rfl, by decide, by decide⟩

/-- In `M32`, with stored bits 0111b (note on U1). -/
theorem witness_ReservedVvvvRaisesUndefinedOpcode_m32 :
    (withCode launched32 [0xC4, 0xE2, 0x39, 0x20, 0xC0]).cfg.debugArmed = false ∧
    ModeInSpec (withCode launched32 [0xC4, 0xE2, 0x39, 0x20, 0xC0]) ∧
    (withCode launched32 [0xC4, 0xE2, 0x39, 0x20, 0xC0]).cfg.endPc ≠ some (withCode launched32 [0xC4, 0xE2, 0x39, 0x20, 0xC0]).pc ∧
    distinctClasses [] = true ∧ (0xE2 : Byte).extractLsb' 6 2 = 3#2 ∧
    (0xE2 : Byte).extractLsb' 0 5 = 2#5 ∧ (0x39 : Byte).extractLsb' 0 2 = 1#2 ∧ (0x39 : Byte).extractLsb' 3 4 ≠ 15#4 ∧
    (fetchWindow (withCode launched32 [0xC4, 0xE2, 0x39, 0x20, 0xC0])).1 =
      [].map Pfx.byte ++ (0xC4 :: 0xE2 :: 0x39 :: Pair.bw.opcode :: [0xC0, 0, 0, 0, 0, 0, 0, 0, 0, 0, 0]) :=
  ⟨rfl, .inr rfl, by decide, rfl, rfl, rfl, rfl, by decide, by decide⟩

/-- Each clause: 66 and F0 before a legacy form; 66, F0, F2, F3 or REX before a VEX form. -/
theorem witness_ForbiddenPrefixesAreUndefined :
    (Mode.m64 ≠ .other ∧ distinctClasses [.opSize, .lock] = true ∧ (Mode.m64 = .m32 → (none : Option Rex) = none) ∧
      Pfx.opSize ∈ [Pfx.opSize, .lock] ∧ Pfx.lock ∈ [Pfx.opSize, .lock] ∧ Pfx.rep ∉ [Pfx.opSize, .lock] ∧
      Pfx.repne ∉ [Pfx.opSize, .lock]) ∧
    (Mode.m32 ≠ .other ∧ distinctClasses [.repne] = true ∧ (Mode.m32 = .m32 → (none : Option Rex) = none ∧
      plainVex.r = false ∧ plainVex.x = false) ∧ Pfx.repne ∈ [Pfx.repne]) ∧
    (distinctClasses [] = true ∧ (Mode.m64 = .m32 → (some (⟨false, false, false, false⟩ : Rex)) = none ∧ plainVex.r = false ∧
      plainVex.x = false) ∧ (some (⟨false, false, false, false⟩ : Rex)).isSome = true) := by decide

/-- Each clause: a repeated class; F3 before a legacy form, with and without REX; no 66; and REX before a prefix (the row
`48 66 0F 38 20 C8`) and before an opcode. -/
theorem witness_SequencesOutsideTheGrammarAreRefused :
    Mode.m64 ≠ .other ∧ distinctClasses [.rep, .opSize] = true ∧ Pfx.rep ∈ [Pfx.rep, .opSize] ∧
    Pfx.rep.sameClass .repne = true ∧ (Mode.m64 = .m32 → some (⟨true, false, false, false⟩ : Rex) = none) ∧
    (Mode.m32 = .m32 → (none : Option Rex) = none) ∧ distinctClasses [.seg .ds] = true ∧ Pfx.rep ∉ [Pfx.seg .ds] ∧
    Pfx.repne ∉ [Pfx.seg .ds] ∧ Pfx.opSize ∉ [Pfx.seg .ds] ∧
    (⟨true, false, false, false⟩ : Rex).byte = 0x48 ∧ (0x66 : Byte) ≠ 0x0F ∧ (0x66 : Byte) ≠ 0xC4 ∧
    decode .m64 [0x48, 0x66, 0x0F, 0x38, 0x20, 0xC8] = .refused .notInFamily := by decide

/-- Each clause: C5 and 62 (in `M32` also 40, no REX there); 0F 39; the opcodes 1F and 26; `mmmmm` 1, `pp` 0, and the opcode 26
after C4. -/
theorem witness_NeighboursOfTheFamilyAreRefused :
    Mode.m64 ≠ .other ∧ Mode.m32 ≠ .other ∧ distinctClasses [.opSize, .lock] = true ∧
    (∀ b ∈ [(0xC5 : Byte), 0x62], b ≠ 0x0F ∧ b ≠ 0xC4 ∧ prefixOf b = none ∧ isRex b = false) ∧
    ((0x40 : Byte) ≠ 0x0F ∧ (0x40 : Byte) ≠ 0xC4 ∧ prefixOf 0x40 = none ∧ (Mode.m32 = .m64 → isRex 0x40 = false)) ∧
    (0x39 : Byte) ≠ 0x38 ∧ (0x1F : Byte).toNat < 0x20 ∧ 0x25 < (0x26 : Byte).toNat ∧
    (0xE1 : Byte).extractLsb' 6 2 = 3#2 ∧ (0xE1 : Byte).extractLsb' 0 5 ≠ 2#5 ∧ (0x78 : Byte).extractLsb' 0 2 ≠ 1#2 := by
  decide

theorem witness_LesIsRefusedInM32 :
    distinctClasses [.opSize] = true ∧ (0xBF : Byte).extractLsb' 6 2 ≠ 3#2 ∧ (0x7F : Byte).extractLsb' 6 2 ≠ 3#2 := by decide

/-! ### Addresses -/

theorem witness_LinearAddressAddsTheSegmentBase : launched.cfg.mode = .m64 ∧ launched32.cfg.mode = .m32 := by decide

/-- ES counts in `M32` and not in `M64`, FS counts in `M64`; the base rbp has the default SS. -/
theorem witness_OperandSegmentFollowsBaseAndOverride :
    (Instr.pmovsxbw { legacyAtAx with pfx := [.seg .es, .opSize] }).wf .m32 = true ∧
    (instrForm .m32 (.pmovsxbw { legacyAtAx with pfx := [.seg .es, .opSize] })).src = .mem { atEax with seg := .es } ∧
    (Instr.pmovsxbw { legacyAtAx with pfx := [.seg .es, .opSize] }).wf .m64 = true ∧
    (instrForm .m64 (.pmovsxbw { legacyAtAx with pfx := [.seg .es, .opSize] })).src = .mem atRax ∧
    (Instr.vpmovsxbwXmm { vexAtAx with pfx := [.seg .fs] }).wf .m64 = true ∧
    (instrForm .m64 (.vpmovsxbwXmm { vexAtAx with pfx := [.seg .fs] })).src = .mem { atRax with seg := .fs } ∧
    (Instr.vpmovsxbwXmm { vexAtAx with rm := ⟨1, 5, none, .d8 0⟩ }).wf .m64 = true ∧
    (instrForm .m64 (.vpmovsxbwXmm { vexAtAx with rm := ⟨1, 5, none, .d8 0⟩ })).src =
      .mem { atRax with seg := .ss, base := some 5 } := by decide

/-! ### What the forms compute -/

/-- The operand at 2000h can be read, 16 bytes of it and fewer. -/
theorem memState_readable :
    OperandReadable memState atRax 5 8 ∧ OperandReadable memState atRax 5 16 ∧ OperandReadable memState32 atEax 5 8 :=
  ⟨⟨⟨by decide, by decide⟩, by decide, .inl (by decide), by decide⟩,
    ⟨⟨by decide, by decide⟩, by decide, .inl (by decide), by decide⟩,
    ⟨⟨by decide, by decide⟩, by decide, .inl (by decide), by decide⟩⟩

/-- The instruction ends below the top of the address space. -/
theorem nextPc_in_space : NextPcInSpace vectorState 5 ∧ NextPcInSpace memState 5 ∧ NextPcInSpace memState32 5 := by
  unfold NextPcInSpace
  decide

/-- A register source and a memory source, in `M64` and `M32`. -/
theorem witness_LegacyFormsComplete :
    (Enabled .legacy vectorState ∧ SourceIs vectorState (formIn vectorState (.pmovsxbw legacy12)) 8 (patternB.setWidth 128) ∧
      NextPcInSpace vectorState (formIn vectorState (.pmovsxbw legacy12)).len) ∧
    (Enabled .legacy memState ∧ SourceIs memState (formIn memState (.pmovsxbw legacyAtAx)) 8 memSource ∧
      NextPcInSpace memState (formIn memState (.pmovsxbw legacyAtAx)).len) ∧
    (Enabled .legacy memState32 ∧ SourceIs memState32 (formIn memState32 (.pmovsxbw legacyAtAx)) 8 memSource ∧
      NextPcInSpace memState32 (formIn memState32 (.pmovsxbw legacyAtAx)).len) :=
  ⟨⟨enabled_vectorState.1, show ∀ i, i < 8 → (patternB.setWidth 128).extractLsb' (8 * i) 8 =
      (vectorState.readV 2).extractLsb' (8 * i) 8 by decide, nextPc_in_space.1⟩,
    ⟨enabled_memState.1, ⟨memState_readable.1, show ∀ i, i < 8 → memSource.extractLsb' (8 * i) 8 =
      Memory.read memState.mem ((operandAddr memState atRax 5).toNat + i) by decide⟩, nextPc_in_space.2.1⟩,
    ⟨enabled_memState.2.2.2.1, ⟨memState_readable.2.2, show ∀ i, i < 8 → memSource.extractLsb' (8 * i) 8 =
      Memory.read memState32.mem ((operandAddr memState32 atEax 5).toNat + i) by decide⟩, nextPc_in_space.2.2⟩⟩

theorem witness_Vex128FormsComplete :
    (Enabled .vex128 vectorState ∧ SourceIs vectorState (formIn vectorState (.vpmovsxbwXmm vex12)) 8 (patternB.setWidth 128) ∧
      NextPcInSpace vectorState (formIn vectorState (.vpmovsxbwXmm vex12)).len) ∧
    (Enabled .vex128 memState ∧ SourceIs memState (formIn memState (.vpmovsxbwXmm vexAtAx)) 8 memSource ∧
      NextPcInSpace memState (formIn memState (.vpmovsxbwXmm vexAtAx)).len) :=
  ⟨⟨enabled_vectorState.2.1, show ∀ i, i < 8 → (patternB.setWidth 128).extractLsb' (8 * i) 8 =
      (vectorState.readV 2).extractLsb' (8 * i) 8 by decide, nextPc_in_space.1⟩,
    ⟨enabled_memState.2.1, ⟨memState_readable.1, show ∀ i, i < 8 → memSource.extractLsb' (8 * i) 8 =
      Memory.read memState.mem ((operandAddr memState atRax 5).toNat + i) by decide⟩, nextPc_in_space.2.1⟩⟩

theorem witness_Vex256FormsComplete :
    (Enabled .vex256 vectorState ∧ SourceIs vectorState (formIn vectorState (.vpmovsxbwYmm vex12)) 16 (patternB.setWidth 128) ∧
      NextPcInSpace vectorState (formIn vectorState (.vpmovsxbwYmm vex12)).len) ∧
    (Enabled .vex256 memState ∧ SourceIs memState (formIn memState (.vpmovsxbwYmm vexAtAx)) 16 memSource ∧
      NextPcInSpace memState (formIn memState (.vpmovsxbwYmm vexAtAx)).len) :=
  ⟨⟨enabled_vectorState.2.2, show ∀ i, i < 16 → (patternB.setWidth 128).extractLsb' (8 * i) 8 =
      (vectorState.readV 2).extractLsb' (8 * i) 8 by decide, nextPc_in_space.1⟩,
    ⟨enabled_memState.2.2.1, ⟨memState_readable.2.1, show ∀ i, i < 16 → memSource.extractLsb' (8 * i) 8 =
      Memory.read memState.mem ((operandAddr memState atRax 5).toNat + i) by decide⟩, nextPc_in_space.2.1⟩⟩

/-- The last element, and bits on both sides of the sign bit. -/
theorem witness_SignExtensionIsExact :
    7 < (shapeOf (.pmovsxbw legacy12)).count ∧ 7 < (shapeOf (.pmovsxbw legacy12)).srcBits ∧
    (shapeOf (.pmovsxbw legacy12)).srcBits ≤ 8 ∧ 15 < (shapeOf (.pmovsxbw legacy12)).dstBits := by decide

theorem witness_WideningComposes : 0 < 8 ∧ 8 ≤ 16 ∧ 16 ≤ 32 ∧ 8 * 16 ≤ 128 ∧ 8 * 32 ≤ 256 := by decide

/-- All three forms of BW complete from one state with register source 2. -/
theorem witness_GroupsAgreeOnTheLowHalf :
    (formIn vectorState (legacyInstr .bw legacy12)).src = .reg 2 ∧ (formIn vectorState (vexInstr false .bw vex12)).src = .reg 2 ∧
    (∃ t, exec (legacyInstr .bw legacy12) vectorState = .next t) ∧
    (∃ u, exec (vexInstr false .bw vex12) vectorState = .next u) ∧
    (∃ v, exec (vexInstr true .bw vex12) vectorState = .next v) :=
  ⟨rfl, rfl, ⟨_, rfl⟩, ⟨_, rfl⟩, ⟨_, rfl⟩⟩

/-- A form of each group completes: the hypothesis of UpperHalfByGroup, of the four statements on what no form writes, and of
ProgramCounterAdvancesByTheLength in `M64`. -/
theorem witness_UpperHalfByGroup :
    vectorState.cfg.mode = .m64 ∧ (∃ t, exec (.pmovsxdq legacy12) vectorState = .next t) ∧
    (∃ t, exec (.vpmovsxdqXmm vex12) vectorState = .next t) ∧ (∃ t, exec (.vpmovsxdqYmm vex12) vectorState = .next t) :=
  ⟨rfl, ⟨_, rfl⟩, ⟨_, rfl⟩, ⟨_, rfl⟩⟩

theorem witness_NoFormWritesGeneralRegisters : ∃ t, exec (.pmovsxbw legacyAtAx) memState = .next t := ⟨_, rfl⟩
theorem witness_NoFormWritesFlagsOrControl : ∃ t, exec (.pmovsxbd legacyAtAx) memState = .next t := ⟨_, rfl⟩
theorem witness_NoFormStores : ∃ t, exec (.vpmovsxbwYmm vexAtAx) memState = .next t := ⟨_, rfl⟩
theorem witness_OnlyTheDestinationChanges :
    (2 : VReg) ≠ (formIn vectorState (.vpmovsxbwXmm vex12)).dst ∧ ∃ t, exec (.vpmovsxbwXmm vex12) vectorState = .next t :=
  ⟨by decide, _, rfl⟩

/-- In both modes, up to the last address at which the next `pc` does not wrap. -/
theorem witness_ProgramCounterAdvancesByTheLength :
    ({ vectorState with pc := 0xFFFFFFFFFFFFFFFA }.cfg.mode = .m64 ∧
      ∃ t, exec (.pmovsxdq legacy12) { vectorState with pc := 0xFFFFFFFFFFFFFFFA } = .next t) ∧
    ({ launched32 with pc := 0xFFFFFFFA }.cfg.mode = .m32 ∧
      ∃ t, exec (.pmovsxdq legacy12) { launched32 with pc := 0xFFFFFFFA } = .next t) :=
  ⟨⟨rfl, _, rfl⟩, rfl, _, rfl⟩

/-- One address further, in both modes: the instruction ends with the last byte of the space (R27, U21). -/
theorem witness_WrappingPcIsRefused :
    (Enabled .legacy { vectorState with pc := 0xFFFFFFFFFFFFFFFB } ∧
      SourceIs { vectorState with pc := 0xFFFFFFFFFFFFFFFB }
        (formIn { vectorState with pc := 0xFFFFFFFFFFFFFFFB } (.pmovsxdq legacy12)) 8 (patternB.setWidth 128) ∧
      ¬ NextPcInSpace { vectorState with pc := 0xFFFFFFFFFFFFFFFB } 5) ∧
    (Enabled .legacy { memState32 with pc := 0xFFFFFFFB } ∧
      SourceIs { memState32 with pc := 0xFFFFFFFB } (formIn { memState32 with pc := 0xFFFFFFFB } (.pmovsxbw legacyAtAx)) 8
        memSource ∧
      ¬ NextPcInSpace { memState32 with pc := 0xFFFFFFFB } 5) ∧
    refusalOf (exec (.pmovsxdq legacy12) { vectorState with pc := 0xFFFFFFFFFFFFFFFB }) = some .pcWraps :=
  ⟨⟨⟨.inl rfl, rfl, rfl, rfl, rfl⟩, show ∀ i, i < 8 → (patternB.setWidth 128).extractLsb' (8 * i) 8 =
      (vectorState.readV 2).extractLsb' (8 * i) 8 by decide, by unfold NextPcInSpace; decide⟩,
    ⟨⟨.inr rfl, rfl, rfl, rfl, rfl⟩, ⟨⟨⟨by decide, by decide⟩, by decide, .inl (by decide), by decide⟩,
      show ∀ i, i < 8 → memSource.extractLsb' (8 * i) 8 =
        Memory.read memState32.mem ((operandAddr memState32 atEax 5).toNat + i) by decide⟩, by unfold NextPcInSpace; decide⟩,
    by decide⟩

/-! ### What the forms read -/

/-- Bits above the two low bytes differ. -/
theorem witness_HighSourceBitsDoNotMatter :
    (formIn vectorState (.pmovsxbq legacy12)).src = .reg 2 ∧ (2 : VReg) ≠ (formIn vectorState (.pmovsxbq legacy12)).dst ∧
    (∀ j, j < (shapeOf (.pmovsxbq legacy12)).nbytes →
      (0x7F80 : Vec).extractLsb' (8 * j) 8 = (vectorState.readV 2).extractLsb' (8 * j) 8) ∧
    (0x7F80 : Vec) ≠ vectorState.readV 2 ∧ ∃ t, exec (.pmovsxbq legacy12) vectorState = .next t :=
  ⟨rfl, by decide, by decide, by decide, _, rfl⟩

/-- Another memory, other general registers, flags and privilege level, and an oracle that denies all. -/
def elsewhere : State :=
  { vectorState with
    mem := [(0x2000, 1)]
    gpr := Vector.replicate 16 7
    rflags := 0x40002
    cpl := 3
    cfg := { vectorState.cfg with
      memCheck := { rules := [⟨some .data, none, none, 0, 2 ^ 64 - 1, .protection⟩], rest := none } } }

theorem witness_RegisterFormsReadVectorsOnly :
    (formIn vectorState (.vpmovsxwqYmm vex12)).src = .reg 2 ∧ (∃ t, exec (.vpmovsxwqYmm vex12) vectorState = .next t) ∧
    elsewhere.vreg = vectorState.vreg ∧ elsewhere.pc = vectorState.pc ∧ elsewhere.cr0 = vectorState.cr0 ∧
    elsewhere.cr4 = vectorState.cr4 ∧ elsewhere.xcr0 = vectorState.xcr0 ∧ elsewhere.cfg.mode = vectorState.cfg.mode ∧
    elsewhere.cfg.hasSse41 = vectorState.cfg.hasSse41 ∧ elsewhere.cfg.hasAvx = vectorState.cfg.hasAvx ∧
    elsewhere.cfg.hasAvx2 = vectorState.cfg.hasAvx2 :=
  ⟨rfl, ⟨_, rfl⟩, rfl, rfl, rfl, rfl, rfl, rfl, rfl, rfl, rfl⟩

/-- A memory that agrees on 2000h and 2001h and differs at 2002h. -/
theorem witness_BytesBeyondTheOperandDoNotMatter :
    (formIn memState (.pmovsxbq legacyAtAx)).src = .mem atRax ∧ (∃ t, exec (.pmovsxbq legacyAtAx) memState = .next t) ∧
    (∀ j, j < (shapeOf (.pmovsxbq legacyAtAx)).nbytes →
      Memory.read [(0x2000, 0x80), (0x2001, 0x7F), (0x2002, 0x55)]
          ((operandAddr memState atRax (formIn memState (.pmovsxbq legacyAtAx)).len).toNat + j) =
        Memory.read memState.mem ((operandAddr memState atRax (formIn memState (.pmovsxbq legacyAtAx)).len).toNat + j)) ∧
    Memory.read [(0x2000, 0x80), (0x2001, 0x7F), (0x2002, 0x55)] 0x2002 ≠ Memory.read memState.mem 0x2002 :=
  ⟨rfl, ⟨_, rfl⟩, by decide, by decide⟩

/-! ### Exceptions -/

theorem witness_ClearFeatureFlagRaisesUndefinedOpcode :
    (withFlags launched false false false).cfg.hasSse41 = false ∧ groupOf (.pmovsxbw legacy12) = .legacy ∧
    (withFlags launched true false false).cfg.hasAvx = false ∧ groupOf (.vpmovsxbwXmm vex12) = .vex128 ∧
    (withFlags launched true true false).cfg.hasAvx2 = false ∧ groupOf (.vpmovsxbwYmm vex12) = .vex256 := by decide

/-- Each condition: a clear feature flag, CR0.EM, CR4.OSFXSR, CR4.OSXSAVE, XCR0 bit 1, XCR0 bit 2. -/
theorem witness_UndefinedConditionsRaiseUndefinedOpcode :
    UndefinedCondition .legacy (withFlags launched false false false) ∧ UndefinedCondition .legacy { launched with cr0 := 4 } ∧
    UndefinedCondition .legacy { launched with cr4 := 0x40000 } ∧
    UndefinedCondition .vex128 (withFlags launched true false false) ∧
    UndefinedCondition .vex128 { launched with cr4 := 0x200 } ∧ UndefinedCondition .vex256 { launched with xcr0 := 5 } ∧
    UndefinedCondition .vex256 { launched with xcr0 := 3 } ∧ UndefinedCondition .vex256 (withFlags launched true true false) :=
  ⟨.inl rfl, .inr (.inl rfl), .inr (.inr rfl), .inl rfl, .inr (.inl rfl), .inr (.inr (.inl rfl)), .inr (.inr (.inr rfl)),
    .inl rfl⟩

/-- For each group, with CR0.TS = 1. -/
theorem witness_TaskSwitchedRaisesDeviceNotAvailable :
    { launched with cr0 := 8 }.cr0Ts = true ∧ ¬ UndefinedCondition .legacy { launched with cr0 := 8 } ∧
    ¬ UndefinedCondition .vex128 { launched with cr0 := 8 } ∧ ¬ UndefinedCondition .vex256 { launched with cr0 := 8 } := by
  unfold UndefinedCondition
  decide

/-- Alignment checking enabled, x[0] = 2001h. -/
def misalignedState : State := withReg aligned 0 0x2001

/-- The same with data denied from 2000h to 2FFFh. -/
def deniedState : State :=
  { misalignedState with cfg := { misalignedState.cfg with
      memCheck := { rules := [⟨some .data, none, none, 0x2000, 0x2FFF, .page 4⟩], rest := none } } }

/-- Each clause: the check alone faults, the alignment check alone faults, both fault. -/
theorem witness_MemoryFaultsAreRaised :
    (Enabled .legacy (withReg deniedState 0 0x2008) ∧
      (formIn (withReg deniedState 0 0x2008) (.pmovsxbw legacyAtAx)).src = .mem atRax ∧
      OperandInSpace (withReg deniedState 0 0x2008) atRax 5 8 ∧
      operandCheck (withReg deniedState 0 0x2008) atRax 5 8 = some (.pf 4) ∧
      ¬ (operandAddr (withReg deniedState 0 0x2008) atRax 5).toNat % 8 ≠ 0) ∧
    (Enabled .legacy misalignedState ∧ (formIn misalignedState (.pmovsxbw legacyAtAx)).src = .mem atRax ∧
      OperandInSpace misalignedState atRax 5 8 ∧ operandCheck misalignedState atRax 5 8 = none ∧
      misalignedState.alignmentChecking = true ∧ (operandAddr misalignedState atRax 5).toNat % 8 ≠ 0) ∧
    (Enabled .legacy deniedState ∧ (formIn deniedState (.pmovsxbw legacyAtAx)).src = .mem atRax ∧
      OperandInSpace deniedState atRax 5 8 ∧ operandCheck deniedState atRax 5 8 = some (.pf 4) ∧
      deniedState.alignmentChecking = true ∧ (operandAddr deniedState atRax 5).toNat % 8 ≠ 0) :=
  ⟨⟨⟨.inl rfl, rfl, rfl, rfl, rfl⟩, rfl, ⟨by decide, by decide⟩, by decide, by decide⟩,
    ⟨⟨.inl rfl, rfl, rfl, rfl, rfl⟩, rfl, ⟨by decide, by decide⟩, by decide, by decide, by decide⟩,
    ⟨⟨.inl rfl, rfl, rfl, rfl, rfl⟩, rfl, ⟨by decide, by decide⟩, by decide, by decide, by decide⟩⟩

theorem witness_MisalignedSixteenByteOperandIsOpen :
    Enabled .vex256 misalignedState ∧ (formIn misalignedState (.vpmovsxbwYmm vexAtAx)).src = .mem atRax ∧
    (shapeOf (.vpmovsxbwYmm vexAtAx)).nbytes = 16 ∧ OperandInSpace misalignedState atRax 5 16 ∧
    operandCheck misalignedState atRax 5 16 = none ∧ misalignedState.alignmentChecking = true ∧
    (operandAddr misalignedState atRax 5).toNat % 16 ≠ 0 ∧
    inDevice misalignedState.cfg.devices (operandAddr misalignedState atRax 5) 16 = false ∧
    (∀ j, j < 16 → (0 : Xmm).extractLsb' (8 * j) 8 =
      Memory.read misalignedState.mem ((operandAddr misalignedState atRax 5).toNat + j)) ∧
    NextPcInSpace misalignedState (formIn misalignedState (.vpmovsxbwYmm vexAtAx)).len :=
  ⟨⟨.inl rfl, rfl, rfl, rfl, rfl, rfl⟩, rfl, rfl, ⟨by decide, by decide⟩, by decide, by decide, by decide, by decide,
    by decide, by unfold NextPcInSpace; decide⟩

/-- An access whose last byte alone is not canonical faults; the one before it does not. -/
theorem witness_MemCheckReportsBySegment :
    launched.cfg.mode = .m64 ∧ canonical launched.cfg.law ((0x00007FFFFFFFFFF9 : Word) + BitVec.ofNat 64 7) = false ∧
    memCheck launched ⟨.data, .ss, 0x00007FFFFFFFFFF9, 0x00007FFFFFFFFFF9, 8, 0⟩ = some .ss ∧
    memCheck launched ⟨.data, .ss, 0x00007FFFFFFFFFF8, 0x00007FFFFFFFFFF8, 8, 0⟩ = none := by decide

/-- Both ends of the two canonical halves at LAW = 48. -/
theorem witness_CanonicalMeansEqualHighBits :
    1 ≤ 48 ∧ 48 ≤ 64 ∧ canonical 48 0x00007FFFFFFFFFFF = true ∧ canonical 48 0x0000800000000000 = false ∧
    canonical 48 0xFFFF800000000000 = true ∧ canonical 48 0xFFFF7FFFFFFFFFFF = false := by decide

/-- `M32`: a linear operand ends one byte past the end of the space (the linear bound); the same through 16-bit addressing is
test_step_operand_wraps. -/
theorem witness_WrappingOperandIsRefused :
    Enabled .legacy (withReg launched32 0 0xFFFFFFF9) ∧
    (formIn (withReg launched32 0 0xFFFFFFF9) (.pmovsxbw legacyAtAx)).src = .mem atEax ∧
    ¬ OperandInSpace (withReg launched32 0 0xFFFFFFF9) atEax 5 8 ∧
    OperandInSpace (withReg launched32 0 0xFFFFFFF8) atEax 5 8 :=
  ⟨⟨.inr rfl, rfl, rfl, rfl, rfl⟩, rfl, fun h => absurd h.1 (by decide), ⟨by decide, by decide⟩⟩

/-- The last byte of the operand is device memory. -/
def deviceState : State :=
  { memState with cfg := { memState.cfg with devices := [⟨0x2007, 0x2FFF⟩] } }

theorem witness_DeviceOperandIsRefused :
    Enabled .legacy deviceState ∧ (formIn deviceState (.pmovsxbw legacyAtAx)).src = .mem atRax ∧
    OperandInSpace deviceState atRax 5 8 ∧ operandCheck deviceState atRax 5 8 = none ∧
    deviceState.alignmentChecking = false ∧ inDevice deviceState.cfg.devices (operandAddr deviceState atRax 5) 8 = true ∧
    inDevice deviceState.cfg.devices (operandAddr deviceState atRax 5) 7 = false :=
  ⟨⟨.inl rfl, rfl, rfl, rfl, rfl⟩, rfl, ⟨by decide, by decide⟩, by decide, by decide, by decide, by decide⟩

theorem witness_RegisterFormsRaiseNoMemoryFault :
    (formIn vectorState (.pmovsxbw legacy12)).src = .reg 2 ∧ ModeInSpec vectorState ∧
    NextPcInSpace vectorState (formIn vectorState (.pmovsxbw legacy12)).len ∧
    exec (.pmovsxbw legacy12) { vectorState with cr0 := 8 } = .fault .nm := ⟨rfl, .inl rfl, nextPc_in_space.1, rfl⟩

/-! ### The step and the run -/

/-- `pc` is at `END`. -/
def endState : State := { launched with pc := 0x1000, cfg := { launched.cfg with endPc := some 0x1000 } }

/-- `pmovsxbw xmm1, xmm2` at 1000h. -/
def codeState : State := withCode vectorState [0x66, 0x0F, 0x38, 0x20, 0xCA]

theorem witness_StepRunsTheDecodedInstruction :
    codeState.cfg.debugArmed = false ∧ ModeInSpec codeState ∧ codeState.cfg.endPc ≠ some codeState.pc ∧
    decode codeState.cfg.mode (fetchWindow codeState).1 = .ok (.pmovsxbw legacy12) [0, 0, 0, 0, 0, 0, 0, 0, 0, 0] :=
  ⟨rfl, .inl rfl, by decide, by decide⟩

/-- `M32`: `pmovsxbw xmm1, xmm2` in the last five bytes of the address space. -/
def topState : State :=
  withBytes { launched32 with pc := 0xFFFFFFFB } 0xFFFFFFFB [0x66, 0x0F, 0x38, 0x20, 0xCA]

/-- Each clause: an armed debug feature, the mode of reset, `END`, and a form asked for in a mode outside the spec. -/
theorem witness_StepBeforeTheFetch :
    { launched with cfg := { launched.cfg with debugArmed := true } }.cfg.debugArmed = true ∧
    State.reset.cfg.debugArmed = false ∧ State.reset.cfg.mode = .other ∧
    endState.cfg.debugArmed = false ∧ ModeInSpec endState ∧ endState.cfg.endPc = some endState.pc ∧
    { launched with cfg := { launched.cfg with mode := .other } }.cfg.mode = .other ∧
    ¬ UndefinedCondition .legacy { launched with cfg := { launched.cfg with mode := .other } } ∧
    { launched with cfg := { launched.cfg with mode := .other } }.cr0Ts = false :=
  ⟨rfl, rfl, rfl, rfl, .inl rfl, rfl, rfl, by unfold UndefinedCondition; decide, rfl⟩

/-- Bytes from 1002h upward may not be fetched; the byte before is the last that can. -/
def unfetchable (s : State) : State :=
  { s with cfg := { s.cfg with memCheck :=
      { rules := [⟨some .fetch, none, none, 0x1002, 0x1FFF, .page 0x14⟩], rest := none } } }

/-- The same, with its last byte beyond the top. -/
def overTopState : State :=
  withBytes { launched32 with pc := 0xFFFFFFFC } 0xFFFFFFFC [0x66, 0x0F, 0x38, 0x20]

/-- Each clause: LOCK before a form, a neighbouring opcode, and bytes that end too early, at a byte that may not be fetched and
at the top of the address space. -/
theorem witness_UndecodedBytesStopTheStep :
    (∀ s ∈ [withCode launched [0xF0, 0x66, 0x0F, 0x38, 0x20, 0x00], withCode launched [0x66, 0x0F, 0x38, 0x26, 0xC0],
        unfetchable (withCode launched32 [0x66, 0x0F, 0x38, 0x20, 0xC8]), overTopState],
      s.cfg.debugArmed = false ∧ s.cfg.mode ≠ .other ∧ s.cfg.endPc ≠ some s.pc ∧ s.pc.toNat < 2 ^ linearBits s.cfg.mode) ∧
    decode .m64 (fetchWindow (withCode launched [0xF0, 0x66, 0x0F, 0x38, 0x20, 0x00])).1 = .undefinedOpcode ∧
    decode .m64 (fetchWindow (withCode launched [0x66, 0x0F, 0x38, 0x26, 0xC0])).1 = .refused .notInFamily ∧
    decode .m32 (fetchWindow (unfetchable (withCode launched32 [0x66, 0x0F, 0x38, 0x20, 0xC8]))).1 = .truncated ∧
    (fetchWindow (unfetchable (withCode launched32 [0x66, 0x0F, 0x38, 0x20, 0xC8]))).1.length = 2 ∧
    faultOf (step (unfetchable (withCode launched32 [0x66, 0x0F, 0x38, 0x20, 0xC8]))) = some (.pf 0x14) ∧
    decode .m32 (fetchWindow overTopState).1 = .truncated ∧ (fetchWindow overTopState).1.length = 4 ∧
    refusalOf (step overTopState) = some .pcWraps := by decide

/-- In `M64`; and in `M32` an instruction whose last byte is the last of the address space. -/
theorem witness_StoredInstructionIsExecuted :
    (codeState.cfg.debugArmed = false ∧ (Instr.pmovsxbw legacy12).wf codeState.cfg.mode = true ∧
      codeState.cfg.endPc ≠ some codeState.pc ∧
      codeState.pc.toNat + (encode (.pmovsxbw legacy12)).length ≤ 2 ^ linearBits codeState.cfg.mode ∧
      ((encode (.pmovsxbw legacy12)).zipIdx.all fun p =>
        fetchFault codeState (codeState.pc + BitVec.ofNat 64 p.2) == none &&
          Memory.read codeState.mem (codeState.pc.toNat + p.2) == p.1) = true) ∧
    (topState.cfg.debugArmed = false ∧ (Instr.pmovsxbw legacy12).wf topState.cfg.mode = true ∧
      topState.cfg.endPc ≠ some topState.pc ∧
      topState.pc.toNat + (encode (.pmovsxbw legacy12)).length = 2 ^ linearBits topState.cfg.mode ∧
      ((encode (.pmovsxbw legacy12)).zipIdx.all fun p =>
        fetchFault topState (topState.pc + BitVec.ofNat 64 p.2) == none &&
          Memory.read topState.mem (topState.pc.toNat + p.2) == p.1) = true) := by decide

/-- Both cases: a final state, and an executed instruction. -/
theorem witness_StepChangesOneVectorRegisterAndPc :
    (∃ t, step codeState = .next t) ∧ codeState.cfg.endPc ≠ some codeState.pc ∧ step endState = .next endState :=
  ⟨⟨_, rfl⟩, by decide, rfl⟩

theorem witness_StepKeepsTheInvariant : Inv codeState ∧ ∃ t, step codeState = .next t :=
  ⟨⟨by decide, ⟨fun _ => rfl, fun _ => rfl, .inl rfl⟩, fun h => absurd rfl h, fun h => absurd h (by decide)⟩, ⟨_, rfl⟩⟩

/-- One instruction, then `END`. -/
theorem witness_FinalRunKeepsAllButVectorsAndPc :
    ∃ t, run 2 { codeState with cfg := { codeState.cfg with endPc := some 0x1005 } } = .final t := ⟨_, rfl⟩

/-- One instruction, and after it a byte that may not be fetched. -/
def faultingState : State :=
  { codeState with cfg := { codeState.cfg with memCheck :=
      { rules := [⟨some .fetch, none, none, 0x1005, 0x1FFF, .page 0x14⟩], rest := none } } }

/-- A run of one instruction: two states. -/
def runStates : Nat → State
  | 0 => { codeState with cfg := { codeState.cfg with endPc := some 0x1005 } }
  | _ + 1 =>
    match step { codeState with cfg := { codeState.cfg with endPc := some 0x1005 } } with
    | .next t => t
    | _ => codeState

/-- Each outcome: final after one step; out of fuel short of `END`; after one step without an `END`, a refusal (zeros are no
instruction); and, where the next byte may not be fetched, a fault. -/
theorem witness_RunIteratesTheStep :
    (step (runStates 0) = .next (runStates 1) ∧ isFinal (runStates 0) = false ∧ isFinal (runStates 1) = true) ∧
    (isFinal codeState = false ∧ (∃ t, step codeState = .next t ∧ isFinal t = false ∧ ∃ r, step t = .refused r) ∧
      run 0 codeState = .outOfFuel codeState) ∧
    (∃ t, step faultingState = .next t ∧ isFinal t = false ∧ step t = .fault (.pf 0x14)) :=
  ⟨⟨rfl, by decide, by decide⟩, ⟨by decide, ⟨_, rfl, by decide, _, rfl⟩, rfl⟩, ⟨_, rfl, by decide, rfl⟩⟩

theorem witness_LaunchedWordIsExecuted :
    decodeTableWord 40 0x0020380F66 = some (.pmovsxbw { plainLegacy with reg := 0, rm := ⟨0, 0, none, .none⟩ }) := by decide

end Sys2Proof.Tests
end

/-! SUPPORT. All 18 instructions as one: `exec` is the shared skeleton `runForm` with the group's #UD condition, the row's
shape and the group's result. What an instruction can do is said here once, and proofs do not split on its constructor. -/

namespace Sys2Proof.Machine

open Sys2Proof

/-- The #UD check of a group, as the execution skeletons make it (60_exceptions.md R123, R125). -/
def groupUndefined (g : Group) (s : State) : Bool :=
  match g with
  | .legacy => s.legacyUndefined
  | .vex128 => s.vex128Undefined
  | .vex256 => s.vex256Undefined

/-- What the destination of an instruction becomes, from its source value (R90, R100, R110). -/
def formResult (i : Instr) (s : State) (src : Xmm) : Vec :=
  let v := psx (shapeOf i).srcBits (shapeOf i).dstBits (shapeOf i).count src
  match groupOf i with
  | .legacy => (s.readV (formIn s i).dst).extractLsb' 128 128 ++ v.setWidth 128
  | .vex128 => 0#128 ++ v.setWidth 128
  | .vex256 => v

/-- The group's check fails exactly under the #UD conditions of its rule. -/
theorem groupUndefined_iff {g : Group} {s : State} : groupUndefined g s = true ↔ UndefinedCondition g s := by
  cases g with
  | legacy => simp [groupUndefined, UndefinedCondition, State.legacyUndefined, or_assoc]
  | vex128 => simp [groupUndefined, UndefinedCondition, State.vex128Undefined, State.vexStateDisabled, or_assoc]
  | vex256 => simp [groupUndefined, UndefinedCondition, State.vex256Undefined, State.vexStateDisabled, or_assoc]

theorem groupUndefined_eq_false {g : Group} {s : State} :
    groupUndefined g s = false ↔ ¬ UndefinedCondition g s := by
  rw [← groupUndefined_iff, Bool.not_eq_true]

/-- Every instruction runs the skeleton of 60_exceptions.md R131 on its own row of the table. -/
theorem exec_eq_runForm (i : Instr) (s : State) :
    exec i s = runForm (groupUndefined (groupOf i) s) (formIn s i) (shapeOf i).nbytes (formResult i s) s := by
  cases i <;> rfl

/-- What any instruction can answer as a next state. -/
theorem exec_eq_next {i : Instr} {s t : State} (h : exec i s = .next t) :
    ¬ UndefinedCondition (groupOf i) s ∧ s.cr0Ts = false ∧ s.cfg.mode ≠ .other ∧
      pcWraps s.cfg.mode s.pc (formIn s i).len = false ∧
      ∃ src, readSource s (formIn s i) (shapeOf i).nbytes = .next src ∧
        t = complete s (formIn s i) (formResult i s src) := by
  rw [exec_eq_runForm] at h
  obtain ⟨hu, hrest⟩ := runForm_eq_next h
  exact ⟨groupUndefined_eq_false.1 hu, hrest⟩

/-- A mode outside the spec is refused once the #UD and #NM checks have passed (log 21). -/
theorem exec_mode_other {i : Instr} {s : State} (hm : s.cfg.mode = .other)
    (hu : ¬ UndefinedCondition (groupOf i) s) (ht : s.cr0Ts = false) :
    exec i s = .refused .modeOutsideSpec := by
  have hc : checkEnabled (groupUndefined (groupOf i) s) s = none :=
    checkEnabled_eq_none.2 ⟨groupUndefined_eq_false.2 hu, ht⟩
  rw [exec_eq_runForm]
  simp [runForm, hc, hm]

/-- The upper half of an instruction's result is what its group says (10_state.md R22). -/
theorem formResult_upperHalf (i : Instr) (s : State) (src : Xmm) :
    UpperHalf (groupOf i) (s.readV (formIn s i).dst) (formResult i s src) := by
  unfold formResult UpperHalf
  cases groupOf i with
  | legacy => exact BitVec.extractLsb'_append_eq_left
  | vex128 => exact BitVec.extractLsb'_append_eq_left
  | vex256 => trivial

/-- An instruction that completes does so within its frame, and its group says what becomes of the upper half. -/
theorem exec_frame {i : Instr} {s t : State} (h : exec i s = .next t) :
    FormFrame s t (formIn s i).dst (formIn s i).len ∧
      UpperHalf (groupOf i) (s.readV (formIn s i).dst) (t.readV (formIn s i).dst) := by
  obtain ⟨-, -, -, -, src, -, rfl⟩ := exec_eq_next h
  refine ⟨complete_frame _ _ _, ?_⟩
  rw [complete_readV_dst]
  exact formResult_upperHalf i s src

end Sys2Proof.Machine

/-! SUPPORT. Elements and sign extension (00_scope.md R11, R16): the bits and the integer of a lane, when two `PSX` results
are equal, and the sizes of the table's rows. -/

namespace Sys2Proof.Machine

open Sys2Proof

/-- The integer of a lane is the integer of its source element (40_pmovsx_legacy_sse.md R98). -/
theorem lane_toInt {sw dw : Nat} (h : sw ≤ dw) (src : Xmm) (i : Nat) :
    (lane sw dw src i).toInt = (src.extractLsb' (sw * i) sw).toInt :=
  BitVec.toInt_signExtend_of_le h

/-- The low bits of a lane are those of its source element. -/
theorem lane_getLsbD_low {sw dw b : Nat} (h : sw ≤ dw) (hb : b < sw) (src : Xmm) (i : Nat) :
    (lane sw dw src i).getLsbD b = (src.extractLsb' (sw * i) sw).getLsbD b := by
  have hbd : b < dw := by omega
  simp only [lane, BitVec.getLsbD_signExtend, hbd, hb, decide_true, Bool.true_and, if_true]

/-- The high bits of a lane are the sign bit of its source element. -/
theorem lane_getLsbD_high {sw dw b : Nat} (hb : sw ≤ b) (hbd : b < dw) (src : Xmm) (i : Nat) :
    (lane sw dw src i).getLsbD b = (src.extractLsb' (sw * i) sw).getLsbD (sw - 1) := by
  have hlow : ¬ b < sw := by omega
  simp only [lane, BitVec.getLsbD_signExtend, hbd, hlow, decide_true, Bool.true_and, if_false,
    BitVec.msb_eq_getLsbD_last]

/-- Sign extension in two steps is sign extension at once: both have the integer of what is extended. -/
theorem signExtend_signExtend_of_le {a b c : Nat} (x : BitVec a) (hab : a ≤ b) (hbc : b ≤ c) :
    (x.signExtend b).signExtend c = x.signExtend c := by
  apply BitVec.eq_of_toInt_eq
  rw [BitVec.toInt_signExtend_of_le hbc, BitVec.toInt_signExtend_of_le hab,
    BitVec.toInt_signExtend_of_le (hab.trans hbc)]

/-- Results made of the same elements are equal. -/
theorem psx_congr {sw sw' dw n : Nat} {src src' : Xmm}
    (h : ∀ i, i < n → lane sw dw src i = lane sw' dw src' i) : psx sw dw n src = psx sw' dw n src' := by
  induction n with
  | zero => rfl
  | succ n ih => rw [psx, psx, ih fun i hi => h i (by omega), h n (by omega)]

/-- The low half of a result holds the elements that fit into it. -/
theorem psx_low_lane (sw : Nat) {dw n i : Nat} (src : Xmm) (hi : i < n) (hn : dw * n ≤ 128) :
    ((psx sw dw n src).setWidth 128).extractLsb' (dw * i) dw = lane sw dw src i := by
  have hfit : dw * i + dw ≤ 128 := le_trans (Nat.mul_le_mul_left dw hi) hn
  rw [BitVec.extractLsb'_setWidth_of_le hfit, psx_lane sw dw src hi (by omega)]

/-- Each row of the table widens its elements, and its result fits a vector register (R16). -/
theorem shapeOf_sizes (i : Instr) :
    (shapeOf i).srcBits ≤ (shapeOf i).dstBits ∧ (shapeOf i).dstBits * (shapeOf i).count ≤ 256 := by
  cases i <;> simp [shapeOf]

end Sys2Proof.Machine

/-! CERTIFICATES. The obligations on the scope of the model (00_scope.md): the invariant at reset and along every step, the
arithmetic of sign extension, no store, and what a step answers before it fetches. -/

namespace Sys2Proof.Machine

open Sys2Proof

/-! ## The invariant -/

/-- Without AVX only a legacy form completes from a consistent configuration (00_scope.md R6). -/
theorem groupOf_eq_legacy_of_noAvx {g : Group} {s : State} (hc : ConfigConsistent s.cfg)
    (ha : s.cfg.hasAvx = false) (hu : ¬ UndefinedCondition g s) : g = .legacy := by
  obtain ⟨havx2, -, -⟩ := hc
  cases g with
  | legacy => rfl
  | vex128 => exact absurd (.inl ha) hu
  | vex256 =>
    have h2 : s.cfg.hasAvx2 = false := Bool.eq_false_iff.2 fun h => by simp [havx2 h] at ha
    exact absurd (.inl h2) hu

/-- A next `pc` that does not wrap is a 32-bit number outside `M64` (10_state.md R26, R27). -/
theorem nextPc_lt_of_ne_m64 {mode : Mode} {pc : Word} {len : Nat} (hm : mode ≠ .m64)
    (hw : pcWraps mode pc len = false) : (nextPc mode pc len).toNat < 2 ^ 32 := by
  have hbits : linearBits mode = 32 := by
    cases mode with
    | m64 => exact absurd rfl hm
    | m32 => rfl
    | other => rfl
  rw [nextPc_toNat hw, ← hbits]
  exact pcWraps_eq_false.1 hw

/-- Every instruction that completes keeps the invariant. -/
theorem exec_keeps_inv {i : Instr} {s t : State} (hi : Inv s) (h : exec i s = .next t) : Inv t := by
  obtain ⟨hmem, hcfg, -, hhigh⟩ := hi
  obtain ⟨hu, -, -, hw, -⟩ := exec_eq_next h
  obtain ⟨⟨⟨-, -, -, -, -, -, -, -, hmem', hcfg'⟩, hother, hpc⟩, hupper⟩ := exec_frame h
  unfold Inv
  rw [hmem', hcfg', hpc]
  refine ⟨hmem, hcfg, fun hm => nextPc_lt_of_ne_m64 hm hw, fun ha q => ?_⟩
  by_cases hq : q = (formIn s i).dst
  · rw [groupOf_eq_legacy_of_noAvx hcfg ha hu] at hupper
    rw [hq]
    exact hupper.trans (hhigh ha _)
  · rw [hother q hq]
    exact hhigh ha q

/-- Settles O47: a step is final and stays, or is an instruction, which keeps the invariant. -/
theorem stepKeepsTheInvariant : Obligations.StepKeepsTheInvariant := by
  intro s t hi h
  obtain ⟨-, -, ⟨-, rfl⟩ | ⟨-, i, -, hx⟩⟩ := step_eq_next h
  · exact hi
  · exact exec_keeps_inv hi hx

/-- Settles O48: every vector register is 0 at reset, `pc` is FFF0h and the feature flags are all set (logs 1, 3). -/
theorem resetHasTheInvariant : Obligations.ResetHasTheInvariant :=
  ⟨reset_mem_wf, ⟨fun _ => rfl, fun _ => rfl, .inl rfl⟩, fun _ => by decide,
    fun ha => by simp [State.reset, resetConfig] at ha⟩

/-! ## Sign extension -/

/-- Settles O19: an element of the result is a lane, and a lane is the sign extension of its source element. -/
theorem signExtensionIsExact : Obligations.SignExtensionIsExact := by
  intro i S j hj
  obtain ⟨hle, hfit⟩ := shapeOf_sizes i
  simp only [psx_lane _ _ S hj hfit]
  exact ⟨lane_toInt hle S j, fun b hb => lane_getLsbD_low hle hb S j,
    fun b hb hbd => lane_getLsbD_high hb hbd S j⟩

/-- Settles O20: lane by lane, the first result's element is the source's, widened, and widening it again composes. -/
theorem wideningComposes : Obligations.WideningComposes := by
  intro a b c n S _ hab hbc hn _
  refine psx_congr fun i hi => ?_
  calc lane b c ((psx a b n S).setWidth 128) i
      = (lane a b S i).signExtend c := by
        rw [lane, psx_low_lane a S hi (by rwa [Nat.mul_comm])]
    _ = lane a c S i := signExtend_signExtend_of_le _ hab hbc

/-! ## Memory and the step -/

/-- Settles O28: memory is in the frame of every instruction. -/
theorem noFormStores : Obligations.NoFormStores := by
  intro i s t h a
  obtain ⟨⟨⟨-, -, -, -, -, -, -, -, hmem, -⟩, -, -⟩, -⟩ := exec_frame h
  rw [hmem]

/-- A step answers what stops it before the fetch. -/
theorem step_of_beforeFetch {s : State} {o : Host.Outcome State Fault Refusal} (h : beforeFetch s = some o) :
    step s = o := by
  simp [step, h]

/-- Settles O43: the three clauses of `beforeFetch` in their order, and the mode check of `exec`. -/
theorem stepBeforeTheFetch : Obligations.StepBeforeTheFetch := by
  intro s
  refine ⟨fun hd => ?armed, fun hd hm => ?mode, fun hd hm he => ?final, fun i hm hu ht => exec_mode_other hm hu ht⟩
  case armed => exact step_of_beforeFetch (by simp [beforeFetch, hd])
  case mode => exact step_of_beforeFetch (by simp [beforeFetch, hd, hm])
  case final => exact step_of_beforeFetch (by simp [beforeFetch, hd, modeInSpec_iff.1 hm, atEnd, he])

end Sys2Proof.Machine

/-! SUPPORT. The 18 constructors as the rows of two formats, `legacyInstr` and `vexInstr` (30_encoding.md R77): what each
function of an instruction answers on a row, so that a proof about every instruction has two cases. -/

namespace Sys2Proof.Machine

open Sys2Proof

/-- Every instruction is the row of its element pair in the legacy format or in the VEX format (R77). -/
theorem instr_byRow {motive : Instr → Prop} (legacy : ∀ k e, motive (legacyInstr k e))
    (vex : ∀ l k e, motive (vexInstr l k e)) (i : Instr) : motive i := by
  cases i with
  | pmovsxbw e => exact legacy .bw e
  | pmovsxbd e => exact legacy .bd e
  | pmovsxbq e => exact legacy .bq e
  | pmovsxwd e => exact legacy .wd e
  | pmovsxwq e => exact legacy .wq e
  | pmovsxdq e => exact legacy .dq e
  | vpmovsxbwXmm e => exact vex false .bw e
  | vpmovsxbdXmm e => exact vex false .bd e
  | vpmovsxbqXmm e => exact vex false .bq e
  | vpmovsxwdXmm e => exact vex false .wd e
  | vpmovsxwqXmm e => exact vex false .wq e
  | vpmovsxdqXmm e => exact vex false .dq e
  | vpmovsxbwYmm e => exact vex true .bw e
  | vpmovsxbdYmm e => exact vex true .bd e
  | vpmovsxbqYmm e => exact vex true .bq e
  | vpmovsxwdYmm e => exact vex true .wd e
  | vpmovsxwqYmm e => exact vex true .wq e
  | vpmovsxdqYmm e => exact vex true .dq e

@[simp] theorem encode_legacyInstr (k : Pair) (e : LegacyEnc) : encode (legacyInstr k e) = e.bytes k := by
  cases k <;> rfl

@[simp] theorem encode_vexInstr (l : Bool) (k : Pair) (e : VexEnc) : encode (vexInstr l k e) = e.bytes l k := by
  cases l <;> cases k <;> rfl

@[simp] theorem wf_legacyInstr (mode : Mode) (k : Pair) (e : LegacyEnc) :
    (legacyInstr k e).wf mode = e.wf mode := by
  cases k <;> rfl

@[simp] theorem wf_vexInstr (mode : Mode) (l : Bool) (k : Pair) (e : VexEnc) :
    (vexInstr l k e).wf mode = e.wf mode := by
  cases l <;> cases k <;> rfl

@[simp] theorem instrForm_legacyInstr (mode : Mode) (k : Pair) (e : LegacyEnc) :
    instrForm mode (legacyInstr k e) = legacyForm mode e := by
  cases k <;> rfl

@[simp] theorem instrForm_vexInstr (mode : Mode) (l : Bool) (k : Pair) (e : VexEnc) :
    instrForm mode (vexInstr l k e) = vexForm mode e := by
  cases l <;> cases k <;> rfl

/-- The element widths of a pair are the same in all three groups (R77). -/
theorem shapeOf_vexInstr_bits (l : Bool) (k : Pair) (e : VexEnc) (e' : LegacyEnc) :
    (shapeOf (vexInstr l k e)).srcBits = (shapeOf (legacyInstr k e')).srcBits ∧
      (shapeOf (vexInstr l k e)).dstBits = (shapeOf (legacyInstr k e')).dstBits := by
  cases l <;> cases k <;> exact ⟨rfl, rfl⟩

/-- The bytes of an instruction are as many as the length of its form (30_encoding.md R76). -/
theorem encode_length (mode : Mode) (i : Instr) : (encode i).length = (instrForm mode i).len := by
  cases i using instr_byRow with
  | legacy k e => simpa [legacyForm] using legacy_bytes_length k e
  | vex l k e => simpa [vexForm] using vex_bytes_length l k e

/-! ## Registers in `M32` -/

/-- In `M32` no extension bit counts: every register number of a form is made of three encoded bits (R63, R73, R75). -/
theorem instrForm_m32 (i : Instr) :
    ∃ (reg : BitVec 3) (ps : List Pfx) (o : RM),
      (instrForm .m32 i).dst = regNum false reg ∧ (instrForm .m32 i).src = srcOf .m32 ps false false o := by
  cases i using instr_byRow with
  | legacy k e => exact ⟨e.reg, e.pfx, e.rm, by rw [instrForm_legacyInstr]; rfl, by rw [instrForm_legacyInstr]; rfl⟩
  | vex l k e => exact ⟨e.reg, e.pfx, e.rm, by rw [instrForm_vexInstr]; rfl, by rw [instrForm_vexInstr]; rfl⟩

/-- Three encoded bits without an extension bit name a register below 8 (R75). -/
theorem regNum_false_lt : ∀ low : BitVec 3, regNum false low < 8 := by
  decide

/-- The table of R69 names only the registers BX, BP, SI and DI. -/
theorem baseIndex16_lt : ∀ (mod : BitVec 2) (rm : BitVec 3),
    (∀ r, (baseIndex16 mod rm).1 = some r → r < 8) ∧ (∀ r, (baseIndex16 mod rm).2 = some r → r < 8) := by
  decide

theorem baseNoSib_lt {mod : BitVec 2} {rm : BitVec 3} {r : GReg} (h : baseNoSib false mod rm = some r) : r < 8 := by
  unfold baseNoSib at h
  split at h
  · simp at h
  · injection h with h
    exact h ▸ regNum_false_lt rm

theorem baseSib_lt {mod : BitVec 2} {sib : Sib} {r : GReg} (h : baseSib false mod sib = some r) : r < 8 := by
  unfold baseSib at h
  split at h
  · simp at h
  · injection h with h
    exact h ▸ regNum_false_lt sib.base

theorem indexSib_lt {sib : Sib} {r : GReg} (h : indexSib false sib = some r) : r < 8 := by
  unfold indexSib at h
  split at h
  · simp at h
  · injection h with h
    exact h ▸ regNum_false_lt sib.index

/-- Without extension bits a memory operand has no base and no index above 7, at any address size (R68, R69). -/
theorem memOp_registers_lt (mode : Mode) (ps : List Pfx) (o : RM) :
    (∀ r, (memOp mode ps false false o).base = some r → r < 8) ∧
      (∀ r, (memOp mode ps false false o).index = some r → r < 8) := by
  unfold memOp
  dsimp only
  split
  · exact baseIndex16_lt o.mod o.rm
  · exact ⟨fun _ h => baseSib_lt h, fun _ h => indexSib_lt h⟩
  · exact ⟨fun _ h => baseNoSib_lt h, fun _ h => by simp at h⟩

/-! ## The linear address -/

/-- In `M64` only the bases of FS and GS are added (20_memory.md R50). -/
theorem linearAddr_m64 {s : State} (hm : s.cfg.mode = .m64) (g : Seg) (ea : Word) :
    linearAddr s g ea = (if g = .fs ∨ g = .gs then segBaseOf s.segBase g else 0) + ea := by
  cases g <;> simp [linearAddr, hm, segBaseOf]

/-- In `M32` every base is added, modulo 2^32 (20_memory.md R50). -/
theorem linearAddr_m32 {s : State} (hm : s.cfg.mode = .m32) (g : Seg) (ea : Word) :
    linearAddr s g ea = ((segBaseOf s.segBase g + ea).setWidth 32).setWidth 64 := by
  simp [linearAddr, hm]

end Sys2Proof.Machine

/-! SUPPORT. Reading the source (10_state.md R21, 20_memory.md R40, R41): two values that agree in their low bytes have the
same elements, and a source that can be read is read. -/

namespace Sys2Proof.Machine

open Sys2Proof

/-- Two values of any widths agree in their low `n` bytes. -/
def LowBytesAgree (n : Nat) {w w' : Nat} (a : BitVec w) (b : BitVec w') : Prop :=
  ∀ j, j < n → a.extractLsb' (8 * j) 8 = b.extractLsb' (8 * j) 8

theorem LowBytesAgree.symm {n w w' : Nat} {a : BitVec w} {b : BitVec w'} (h : LowBytesAgree n a b) :
    LowBytesAgree n b a :=
  fun j hj => (h j hj).symm

theorem LowBytesAgree.trans {n w w' w'' : Nat} {a : BitVec w} {b : BitVec w'} {c : BitVec w''}
    (hab : LowBytesAgree n a b) (hbc : LowBytesAgree n b c) : LowBytesAgree n a c :=
  fun j hj => (hab j hj).trans (hbc j hj)

/-- Bit `b` of a value is bit `b mod 8` of its byte `b / 8`. -/
theorem LowBytesAgree.getLsbD {n w w' : Nat} {x : BitVec w} {y : BitVec w'} (h : LowBytesAgree n x y) {b : Nat}
    (hb : b < 8 * n) : x.getLsbD b = y.getLsbD b := by
  have hbyte := congrArg (fun v : BitVec 8 => v.getLsbD (b % 8)) (h (b / 8) (by omega))
  simpa [Nat.mod_lt, Nat.div_add_mod] using hbyte

/-- Values that agree in their low bytes have the same elements there. -/
theorem LowBytesAgree.lane_eq {n : Nat} {x y : Xmm} (h : LowBytesAgree n x y) {sw i : Nat} (dw : Nat)
    (hi : sw * (i + 1) ≤ 8 * n) : lane sw dw x i = lane sw dw y i := by
  unfold lane
  congr 1
  apply BitVec.eq_of_getLsbD_eq
  intro j hj
  rw [Nat.mul_succ] at hi
  simp only [BitVec.getLsbD_extractLsb', h.getLsbD (show sw * i + j < 8 * n by omega)]

/-- The XMM view has the register's low bytes. -/
theorem readXmm_lowBytes (s : State) (m : VReg) {n : Nat} (hn : n ≤ 16) :
    LowBytesAgree n (s.readXmm m) (s.readV m) :=
  fun _ _ => BitVec.extractLsb'_setWidth_of_le (by omega)

/-- What a form reads from a register is the register's low bytes. -/
theorem readSource_reg_lowBytes {s : State} {f : Form} {n : Nat} {m : VReg} {src : Xmm} (hsrc : f.src = .reg m)
    (hn : n ≤ 16) (h : readSource s f n = .next src) : LowBytesAgree n src (s.readV m) := by
  rw [readSource_reg hsrc] at h
  injection h with h
  intro j hj
  rw [← h, BitVec.extractLsb'_setWidth_of_le (by omega), BitVec.extractLsb'_setWidth_of_le (by omega)]
  exact readXmm_lowBytes s m hn j hj

theorem operandWraps_eq_false {s : State} {o : MemOp} {len n : Nat} :
    operandWraps s.cfg.mode o.asz (effectiveAddr s o len) (operandAddr s o len) n = false ↔
      OperandInSpace s o len n := by
  simp [operandWraps, OperandInSpace]

/-- An operand that can be read is read from its linear address. -/
theorem memRead_of_readable {s : State} {o : MemOp} {len n : Nat} (h : OperandReadable s o len n) :
    memRead s o.asz o.seg (effectiveAddr s o len) n = .next (readLE s.mem (operandAddr s o len).toNat n) := by
  obtain ⟨hspace, hcheck, halign, hdev⟩ := h
  have haf : alignmentFaults s (operandAddr s o len) n = false := by
    rcases halign with hoff | haligned
    · exact alignmentFaults_disabled _ n hoff
    · exact alignmentFaults_aligned haligned
  exact memRead_next (operandWraps_eq_false.2 hspace) (operandFault_eq_none.2 ⟨hcheck, haf⟩) hdev

/-- A form whose source value is `S` reads a value with the bytes of `S`. -/
theorem readSource_of_sourceIs {s : State} {f : Form} {n : Nat} {S : Xmm} (h : SourceIs s f n S) (hn : n ≤ 16) :
    ∃ src, readSource s f n = .next src ∧ LowBytesAgree n src S := by
  unfold SourceIs at h
  cases hsrc : f.src with
  | reg m =>
    simp only [hsrc] at h
    have hread := readSource_reg (s := s) (n := n) hsrc
    exact ⟨_, hread, (readSource_reg_lowBytes hsrc hn hread).trans (LowBytesAgree.symm h)⟩
  | mem o =>
    simp only [hsrc] at h
    obtain ⟨hread, hbytes⟩ := h
    exact ⟨_, (readSource_mem hsrc).trans (memRead_of_readable hread),
      fun j hj => (readLE_byte s.mem _ hj hn).trans (hbytes j hj).symm⟩

end Sys2Proof.Machine

/-! SUPPORT. What an instruction makes of its source value: its elements, which bytes they come from, and the low half that
the three groups share (R90, R100, R110). -/

namespace Sys2Proof.Machine

open Sys2Proof

/-- The elements of a row are its operand's bytes, at most 16 of them (20_memory.md R41). -/
theorem shapeOf_bytes (i : Instr) :
    (shapeOf i).srcBits * (shapeOf i).count = 8 * (shapeOf i).nbytes ∧ (shapeOf i).nbytes ≤ 16 := by
  cases i <;> simp [shapeOf]

/-- A row of a 128-bit group fills the low half, and a row of the 256-bit group twice as much (R16). -/
theorem shapeOf_fills (i : Instr) :
    (shapeOf i).dstBits * (shapeOf i).count = (if groupOf i = .vex256 then 256 else 128) ∧
      (shapeOf i).dstBits * (128 / (shapeOf i).dstBits) = 128 ∧ 128 / (shapeOf i).dstBits ≤ (shapeOf i).count := by
  cases i <;> simp [shapeOf, groupOf]

/-- Element `j` of a row's source lies within the operand's bytes. -/
theorem shapeOf_element_fits (i : Instr) {j : Nat} (hj : j < (shapeOf i).count) :
    (shapeOf i).srcBits * (j + 1) ≤ 8 * (shapeOf i).nbytes :=
  (Nat.mul_le_mul_left _ hj).trans (shapeOf_bytes i).1.le

/-- The result depends on the operand's bytes and on the old destination alone. -/
theorem formResult_congr {i : Instr} {s s' : State} {src src' : Xmm}
    (hold : s'.readV (formIn s' i).dst = s.readV (formIn s i).dst)
    (hsrc : LowBytesAgree (shapeOf i).nbytes src' src) : formResult i s' src' = formResult i s src := by
  have hpsx : psx (shapeOf i).srcBits (shapeOf i).dstBits (shapeOf i).count src' =
      psx (shapeOf i).srcBits (shapeOf i).dstBits (shapeOf i).count src :=
    psx_congr fun j hj => hsrc.lane_eq _ (shapeOf_element_fits i hj)
  simp only [formResult, hold, hpsx]

/-- Bits 127:0 of `PSX` hold its first elements: those that fill the low half. -/
theorem psx_lowHalf {sw dw n m : Nat} {src : Xmm} (hn : dw * n = 128) (hnm : n ≤ m) :
    (psx sw dw m src).setWidth 128 = (psx sw dw n src).setWidth 128 := by
  induction m, hnm using Nat.le_induction with
  | base => rfl
  | succ m hnm ih =>
    have habove : 128 ≤ dw * m := hn ▸ Nat.mul_le_mul_left dw hnm
    apply BitVec.eq_of_getLsbD_eq
    intro j hj
    have hlow : (psx sw dw m src).getLsbD j = (psx sw dw n src).getLsbD j := by
      simpa [hj] using congrArg (fun v : Xmm => v.getLsbD j) ih
    simp [psx, hj, hlow, show j < dw * m by omega]

/-- Bits 127:0 of an instruction's result, in every group: the elements that fill the low half (10_state.md R22). -/
theorem formResult_lowHalf (i : Instr) (s : State) (src : Xmm) :
    (formResult i s src).setWidth 128 =
      (psx (shapeOf i).srcBits (shapeOf i).dstBits (128 / (shapeOf i).dstBits) src).setWidth 128 := by
  obtain ⟨-, hfill, hle⟩ := shapeOf_fills i
  rw [← psx_lowHalf hfill hle]
  unfold formResult
  cases groupOf i with
  | legacy => exact BitVec.setWidth_append_eq_right
  | vex128 => exact BitVec.setWidth_append_eq_right
  | vex256 => rfl

/-- Every element of an instruction's result is the source element with its number, sign-extended (R16). -/
theorem formResult_lanes (i : Instr) (s : State) (src : Xmm) : Lanes (shapeOf i) src (formResult i s src) := by
  intro j hj
  obtain ⟨hfill, -, -⟩ := shapeOf_fills i
  have hfit : (shapeOf i).dstBits * j + (shapeOf i).dstBits ≤ (shapeOf i).dstBits * (shapeOf i).count :=
    Nat.mul_le_mul_left _ hj
  unfold formResult
  cases hg : groupOf i with
  | legacy =>
    have hlow : (shapeOf i).dstBits * (shapeOf i).count = 128 := by simpa [hg] using hfill
    exact (BitVec.extractLsb'_append_eq_of_add_le (hlow ▸ hfit)).trans (psx_low_lane _ src hj hlow.le)
  | vex128 =>
    have hlow : (shapeOf i).dstBits * (shapeOf i).count = 128 := by simpa [hg] using hfill
    exact (BitVec.extractLsb'_append_eq_of_add_le (hlow ▸ hfit)).trans (psx_low_lane _ src hj hlow.le)
  | vex256 => exact psx_lane _ _ src hj (shapeOf_sizes i).2

/-- The elements are those of any source value with the same bytes. -/
theorem lanes_congr {i : Instr} {S S' : Xmm} {v : Vec} (h : LowBytesAgree (shapeOf i).nbytes S S')
    (hv : Lanes (shapeOf i) S v) : Lanes (shapeOf i) S' v :=
  fun j hj => (hv j hj).trans (h.lane_eq (shapeOf i).dstBits (shapeOf_element_fits i hj))

end Sys2Proof.Machine

/-! SUPPORT. When an instruction completes: enabled, its source read, its next `pc` in the space (60_exceptions.md R131). -/

namespace Sys2Proof.Machine

open Sys2Proof

/-- An enabled group passes every check of R131 that comes before the operand. -/
theorem Enabled.checks {g : Group} {s : State} (h : Enabled g s) :
    ¬ UndefinedCondition g s ∧ s.cr0Ts = false ∧ s.cfg.mode ≠ .other := by
  obtain ⟨hmode, hts, hg⟩ := h
  refine ⟨?_, hts, modeInSpec_iff.1 hmode⟩
  cases g <;> simp_all [UndefinedCondition]

/-- An instruction whose checks pass and whose source is read comes to its end, `finish`. -/
theorem exec_eq_finish {i : Instr} {s : State} {src : Xmm} (hu : ¬ UndefinedCondition (groupOf i) s)
    (ht : s.cr0Ts = false) (hm : s.cfg.mode ≠ .other)
    (hs : readSource s (formIn s i) (shapeOf i).nbytes = .next src) :
    exec i s = finish s (formIn s i) (formResult i s src) := by
  rw [exec_eq_runForm]
  simp [runForm, checkEnabled_eq_none.2 ⟨groupUndefined_eq_false.2 hu, ht⟩, hm, hs]

/-- The completion of an instruction on a source value with the bytes of `S` is what the rules say of `S`. -/
theorem complete_completesIn {i : Instr} {s : State} {src S : Xmm} (hS : LowBytesAgree (shapeOf i).nbytes src S)
    (hx : exec i s = .next (complete s (formIn s i) (formResult i s src))) :
    CompletesIn i s (complete s (formIn s i) (formResult i s src)) S := by
  obtain ⟨hframe, hupper⟩ := exec_frame hx
  refine ⟨hx, ?_, hupper, hframe⟩
  rw [complete_readV_dst]
  exact lanes_congr hS (formResult_lanes i s src)

/-- An enabled instruction whose source can be read and whose next `pc` does not wrap completes, in every group. -/
theorem exec_completes {i : Instr} {s : State} {S : Xmm} (hen : Enabled (groupOf i) s)
    (hS : SourceIs s (formIn s i) (shapeOf i).nbytes S) (hpc : NextPcInSpace s (formIn s i).len) :
    ∃ t, CompletesIn i s t S := by
  obtain ⟨hu, ht, hm⟩ := hen.checks
  obtain ⟨src, hread, hagree⟩ := readSource_of_sourceIs hS (shapeOf_bytes i).2
  have hx := (exec_eq_finish hu ht hm hread).trans (finish_next _ (pcWraps_eq_false.2 hpc))
  exact ⟨_, complete_completesIn hagree hx⟩

/-- Bits 127:0 of the destination after a register form, in every group: the elements of the source's XMM view. -/
theorem exec_reg_lowHalf {i : Instr} {s t : State} {m : VReg} (hsrc : (formIn s i).src = .reg m)
    (h : exec i s = .next t) :
    t.readXmm (formIn s i).dst =
      (psx (shapeOf i).srcBits (shapeOf i).dstBits (128 / (shapeOf i).dstBits) (s.readXmm m)).setWidth 128 := by
  obtain ⟨-, -, -, -, src, hread, rfl⟩ := exec_eq_next h
  obtain ⟨-, hn⟩ := shapeOf_bytes i
  have hagree : LowBytesAgree (shapeOf i).nbytes src (s.readXmm m) :=
    (readSource_reg_lowBytes hsrc hn hread).trans (readXmm_lowBytes s m hn).symm
  calc State.readXmm (complete s (formIn s i) (formResult i s src)) (formIn s i).dst
      = (formResult i s src).setWidth 128 := by rw [State.readXmm, complete_readV_dst]
    _ = (formResult i s (s.readXmm m)).setWidth 128 := by rw [formResult_congr rfl hagree]
    _ = _ := formResult_lowHalf i s _

end Sys2Proof.Machine

/-! SUPPORT. What the decoder can read (30_encoding.md R83): one inversion lemma per step of the procedure, and from them
that an instruction that is read is one the spec admits. -/

namespace Sys2Proof

open Sys2Proof.Machine

/-! ## ModRM, SIB and displacement -/

theorem Disp.bytes_length (d : Disp) : d.bytes.length = d.size := by
  cases d <;> rfl

/-- The displacement fits exactly where it has the bytes the decoder takes (R66, R68, R69). -/
theorem dispFits_iff {a16 : Bool} {o : RM} :
    o.dispFits a16 = true ↔ o.disp.size = dispBytes a16 o.mod o.rm o.sib := by
  obtain ⟨mod, rm, sib, disp⟩ := o
  have hmod : mod = 0#2 ∨ mod = 1#2 ∨ mod = 2#2 ∨ mod = 3#2 := by
    revert mod
    decide
  rcases hmod with rfl | rfl | rfl | rfl
  case inl =>
    cases a16 <;> cases sib <;> simp [RM.dispFits, RM.lacksBase, dispBytes] <;> split <;> simp
  all_goals simp [RM.dispFits, RM.lacksBase, dispBytes]

/-- A SIB byte is read where one follows. -/
theorem takeSib_isSome {follows : Bool} {bs rest : List Byte} {sib : Option Sib}
    (h : takeSib follows bs = .ok sib rest) : sib.isSome = follows := by
  cases follows with
  | false =>
    injection h with h
    rw [← h]
    rfl
  | true =>
    cases bs with
    | nil => simp [takeSib] at h
    | cons b bs =>
      injection h with h
      rw [← h]
      rfl

/-- An operand that is read is encoded as R64 to R69 say. -/
theorem decodeRM_wf {a16 : Bool} {bs rest : List Byte} {f : BitVec 3 × RM} (h : decodeRM a16 bs = .ok f rest) :
    f.2.wf a16 = true := by
  cases bs with
  | nil => simp [decodeRM] at h
  | cons m bs =>
    obtain ⟨sib, bs', hsib, h⟩ := Decoded.andThen_eq_ok h
    obtain ⟨disp, rest', hdisp, h⟩ := Decoded.andThen_eq_ok h
    injection h with hf hrest
    obtain ⟨-, hlen⟩ := takeDisp_eq_ok hdisp
    have hfits : f.2.dispFits a16 = true :=
      dispFits_iff.2 (by rw [← hf, ← Disp.bytes_length]; exact hlen)
    have hpresent : f.2.sib.isSome = Sib.presentWhen a16 f.2.mod f.2.rm := by
      rw [← hf]
      exact takeSib_isSome hsib
    simp [RM.wf, hfits, hpresent]

/-! ## The two formats -/

/-- What the legacy format can read after 0F 38 op: a row of its pair, with 66h and without F0, F2 and F3 before it. -/
theorem decodeLegacyBody_eq_ok {mode : Mode} {ps : List Pfx} {rex : Option Rex} {op : Byte} {bs rest : List Byte}
    {i : Instr} (h : decodeLegacyBody mode ps rex op bs = .ok i rest) :
    ∃ k f, pairOf op = some k ∧ ps.any Pfx.isRepeat = false ∧ ps.contains .opSize = true ∧ ps.contains .lock = false ∧
      decodeRM (addressSize16 mode ps) bs = .ok f rest ∧
      i = legacyInstr k { pfx := ps, rex := rex, reg := f.1, rm := f.2 } := by
  unfold decodeLegacyBody at h
  cases hk : pairOf op with
  | none => simp [hk] at h
  | some k =>
    simp only [hk] at h
    split at h
    · simp at h
    · rename_i hrep
      split at h
      · simp at h
      · rename_i hsize
        split at h
        · simp at h
        · rename_i hlock
          obtain ⟨f, rest', hf, h⟩ := Decoded.andThen_eq_ok h
          injection h with hi hrest
          subst hrest
          exact ⟨k, f, rfl, by simpa using hrep, by simpa using hsize, by simpa using hlock, hf, hi.symm⟩

/-- What the VEX format can read after C4 vex1 vex2 op: a row of its pair, with none of 66, F0, F2, F3 and REX before it. -/
theorem decodeVexBody_eq_ok {mode : Mode} {ps : List Pfx} {rex : Option Rex} {vex1 vex2 op : Byte}
    {bs rest : List Byte} {i : Instr} (h : decodeVexBody mode ps rex vex1 vex2 op bs = .ok i rest) :
    ∃ k f, pairOf op = some k ∧ vex1.extractLsb' 0 5 = 2#5 ∧ vex2.extractLsb' 0 2 = 1#2 ∧
      vex2.extractLsb' 3 4 = 15#4 ∧ ps.any Pfx.forbidsVex = false ∧ rex = none ∧
      decodeRM (addressSize16 mode ps) bs = .ok f rest ∧
      i = vexInstr (vex2.getLsbD 2) k
        { pfx := ps, r := !vex1.getLsbD 7, x := !vex1.getLsbD 6, b := !vex1.getLsbD 5, w := vex2.getLsbD 7,
          reg := f.1, rm := f.2 } := by
  unfold decodeVexBody at h
  split at h
  · simp at h
  · rename_i hmap
    obtain ⟨hmmmmm, hpp⟩ : vex1.extractLsb' 0 5 = 2#5 ∧ vex2.extractLsb' 0 2 = 1#2 := by simpa using hmap
    cases hk : pairOf op with
    | none => simp [hk] at h
    | some k =>
      simp only [hk] at h
      split at h
      · simp at h
      · rename_i hforbid
        obtain ⟨hpfx, hrex⟩ : ps.any Pfx.forbidsVex = false ∧ rex = none := by simpa using hforbid
        split at h
        · simp at h
        · rename_i hvvvv
          obtain ⟨f, rest', hf, h⟩ := Decoded.andThen_eq_ok h
          injection h with hi hrest
          subst hrest
          exact ⟨k, f, rfl, hmmmmm, hpp, by simpa using hvvvv, hpfx, hrex, hf, hi.symm⟩

/-- What can be read after the byte C4h: a VEX form, and in `M32` only where bits 7:6 of the next byte are 11b (R73). -/
theorem decodeC4_eq_ok {mode : Mode} {ps : List Pfx} {rex : Option Rex} {bs rest : List Byte} {i : Instr}
    (h : decodeC4 mode ps rex bs = .ok i rest) :
    ∃ vex1 vex2 op tail, bs = vex1 :: vex2 :: op :: tail ∧ (mode ≠ .m64 → vex1.extractLsb' 6 2 = 3#2) ∧
      decodeVexBody mode ps rex vex1 vex2 op tail = .ok i rest := by
  cases bs with
  | nil => simp [decodeC4] at h
  | cons vex1 bs =>
    simp only [decodeC4] at h
    split at h
    · simp at h
    · rename_i hles
      split at h
      · rename_i vex2 op tail
        exact ⟨vex1, vex2, op, tail, rfl, by simpa using hles, h⟩
      · simp at h

/-- What can be read after the byte 0Fh: a legacy form, after the byte 38h. -/
theorem decodeEscape_eq_ok {mode : Mode} {ps : List Pfx} {rex : Option Rex} {bs rest : List Byte} {i : Instr}
    (h : decodeEscape mode ps rex bs = .ok i rest) :
    ∃ op tail, bs = 0x38 :: op :: tail ∧ decodeLegacyBody mode ps rex op tail = .ok i rest := by
  cases bs with
  | nil => simp [decodeEscape] at h
  | cons b bs =>
    simp only [decodeEscape] at h
    split at h
    · simp at h
    · rename_i hb
      obtain rfl : b = 0x38 := by simpa using hb
      split at h
      · simp at h
      · rename_i op tail
        exact ⟨op, tail, rfl, h⟩

/-- What can be read at the byte that selects the format (R83 step 3). -/
theorem decodeFormat_eq_ok {mode : Mode} {ps : List Pfx} {rex : Option Rex} {bs rest : List Byte} {i : Instr}
    (h : decodeFormat mode ps rex bs = .ok i rest) :
    (∃ tail, bs = 0xC4 :: tail ∧ decodeC4 mode ps rex tail = .ok i rest) ∨
      (∃ tail, bs = 0x0F :: tail ∧ decodeEscape mode ps rex tail = .ok i rest) := by
  cases bs with
  | nil => simp [decodeFormat] at h
  | cons b tail =>
    simp only [decodeFormat] at h
    split at h
    · rename_i hb
      obtain rfl : b = 0xC4 := by simpa using hb
      exact .inl ⟨tail, rfl, h⟩
    · split at h
      · rename_i hb
        obtain rfl : b = 0x0F := by simpa using hb
        exact .inr ⟨tail, rfl, h⟩
      · simp at h

/-- What can be read after the prefixes (R83 step 2): with a REX byte, in `M64` alone, or without one. -/
theorem decodeAfterPrefixes_eq_ok {mode : Mode} {ps : List Pfx} {bs rest : List Byte} {i : Instr}
    (h : decodeAfterPrefixes mode ps bs = .ok i rest) :
    (∃ b tail, bs = b :: tail ∧ mode = .m64 ∧ isRex b = true ∧
      decodeFormat mode ps (some (rexOf b)) tail = .ok i rest) ∨
    decodeFormat mode ps none bs = .ok i rest := by
  cases bs with
  | nil => simp [decodeAfterPrefixes] at h
  | cons b tail =>
    simp only [decodeAfterPrefixes] at h
    split at h
    · rename_i hb
      obtain ⟨hm, hrex⟩ : mode = .m64 ∧ isRex b = true := by simpa using hb
      exact .inl ⟨b, tail, rfl, hm, hrex, h⟩
    · exact .inr h

/-- In a mode of the spec the decoder reads the prefixes and then what follows them (R83). -/
theorem decode_eq {mode : Mode} (hm : mode ≠ .other) (bs : List Byte) :
    decode mode bs = (scanPrefixes bs []).andThen fun ps rest => decodeAfterPrefixes mode ps rest := by
  cases mode with
  | m64 => rfl
  | m32 => rfl
  | other => exact absurd rfl hm

/-- What the decoder can read: prefixes of distinct classes, and a form after them, in a mode of the spec. -/
theorem decode_eq_ok {mode : Mode} {bs rest : List Byte} {i : Instr} (h : decode mode bs = .ok i rest) :
    mode ≠ .other ∧ ∃ ps tail, scanPrefixes bs [] = .ok ps tail ∧ decodeAfterPrefixes mode ps tail = .ok i rest := by
  have hm : mode ≠ .other := by
    rintro rfl
    simp [decode] at h
  rw [decode_eq hm] at h
  exact ⟨hm, Decoded.andThen_eq_ok h⟩

/-! ## Well-formedness -/

/-- Prefixes without F0, F2 and F3 are harmless (R62). -/
theorem all_harmless_of_legacy {ps : List Pfx} (hrep : ps.any Pfx.isRepeat = false) (hlock : ps.contains .lock = false) :
    ps.all Pfx.harmless = true := by
  rw [List.all_eq_true]
  intro p hp
  have hnr := List.any_eq_false.1 hrep p hp
  cases p with
  | lock => simp [hp] at hlock
  | repne => simp [Pfx.isRepeat] at hnr
  | rep => simp [Pfx.isRepeat] at hnr
  | opSize => rfl
  | addrSize => rfl
  | seg g => rfl

/-- Prefixes that may stand before C4h are harmless and not 66h (R62, R125). -/
theorem all_harmless_of_vex {ps : List Pfx} (h : ps.any Pfx.forbidsVex = false) :
    ps.all Pfx.harmless = true ∧ ps.contains .opSize = false := by
  rw [List.any_eq_false] at h
  refine ⟨List.all_eq_true.2 fun p hp => ?_, ?_⟩
  · have hnf := h p hp
    cases p <;> simp_all [Pfx.forbidsVex, Pfx.harmless]
  · have hnf := h .opSize
    simpa [Pfx.forbidsVex] using hnf

/-- A form that is read after prefixes of distinct classes is well-formed; a REX byte may stand there in `M64` alone. -/
theorem decodeFormat_wf {mode : Mode} {ps : List Pfx} {rex : Option Rex} {bs rest : List Byte} {i : Instr}
    (hm : mode ≠ .other) (hd : distinctClasses ps = true) (hrex : mode = .m64 ∨ rex = none)
    (h : decodeFormat mode ps rex bs = .ok i rest) : i.wf mode = true := by
  rcases decodeFormat_eq_ok h with ⟨tail, -, h⟩ | ⟨tail, -, h⟩
  · obtain ⟨vex1, vex2, op, bs', -, hles, h⟩ := decodeC4_eq_ok h
    obtain ⟨k, f, -, -, -, -, hforbid, -, hrm, rfl⟩ := decodeVexBody_eq_ok h
    obtain ⟨hharm, hsize⟩ := all_harmless_of_vex hforbid
    have hext : mode = .m64 ∨ vex1.getLsbD 7 = true ∧ vex1.getLsbD 6 = true := by
      by_cases h64 : mode = .m64
      · exact .inl h64
      · have hbits := hles h64
        exact .inr ⟨by simpa using congrArg (·.getLsbD 1) hbits, by simpa using congrArg (·.getLsbD 0) hbits⟩
    have hrm' : f.2.wf (uses16 mode ps) = true := decodeRM_wf hrm
    rw [wf_vexInstr]
    simp only [VexEnc.wf, Bool.and_eq_true, Bool.or_eq_true, Bool.not_eq_true', bne_iff_ne, beq_iff_eq, Bool.not_not]
    exact ⟨⟨⟨⟨⟨hm, hd⟩, hsize⟩, hharm⟩, hext⟩, hrm'⟩
  · obtain ⟨op, bs', -, h⟩ := decodeEscape_eq_ok h
    obtain ⟨k, f, -, hrep, hsize, hlock, hrm, rfl⟩ := decodeLegacyBody_eq_ok h
    have hrm' : f.2.wf (uses16 mode ps) = true := decodeRM_wf hrm
    rw [wf_legacyInstr]
    simp only [LegacyEnc.wf, Bool.and_eq_true, Bool.or_eq_true, bne_iff_ne, beq_iff_eq, Option.isNone_iff_eq_none]
    exact ⟨⟨⟨⟨⟨hm, hd⟩, hsize⟩, all_harmless_of_legacy hrep hlock⟩, hrex⟩, hrm'⟩

/-- Every instruction the decoder reads is one the spec admits in the mode (R60 to R73, R83). -/
theorem decode_wf {mode : Mode} {bs rest : List Byte} {i : Instr} (h : decode mode bs = .ok i rest) :
    i.wf mode = true := by
  obtain ⟨hm, ps, tail, hscan, h⟩ := decode_eq_ok h
  obtain ⟨-, hd, -, -⟩ := scanPrefixes_eq_ok hscan
  rcases decodeAfterPrefixes_eq_ok h with ⟨b, bs', -, h64, -, h⟩ | h
  · exact decodeFormat_wf hm hd (.inl h64) h
  · exact decodeFormat_wf hm hd (.inr rfl) h

end Sys2Proof

/-! SUPPORT. How many bytes the decoder can need (30_encoding.md R76, decision D27): each step of the procedure that runs out
of bytes was given few, and the whole procedure fewer than 15. -/

namespace Sys2Proof

open Sys2Proof.Machine

/-- If a sequence runs out of bytes, its first part does or what follows it does. -/
theorem Decoded.andThen_eq_truncated {α β : Type} {d : Decoded α} {f : α → List Byte → Decoded β}
    (h : d.andThen f = .truncated) : d = .truncated ∨ ∃ a r, d = .ok a r ∧ f a r = .truncated := by
  cases d with
  | ok a r => exact .inr ⟨a, r, rfl, h⟩
  | undefinedOpcode => simp [Decoded.andThen] at h
  | refused w => simp [Decoded.andThen] at h
  | truncated => exact .inl rfl

/-! ## Prefixes -/

/-- The five classes of prefixes (R62). -/
def Pfx.classNum : Pfx → Fin 5
  | .opSize => 0
  | .addrSize => 1
  | .seg _ => 2
  | .lock => 3
  | .repne => 4
  | .rep => 4

theorem Pfx.sameClass_iff {p q : Pfx} : p.sameClass q = true ↔ p.classNum = q.classNum := by
  cases p <;> cases q <;> simp [Pfx.sameClass, Pfx.classNum]

theorem distinctClasses_iff_nodup {ps : List Pfx} :
    distinctClasses ps = true ↔ (ps.map Pfx.classNum).Nodup := by
  induction ps with
  | nil => simp [distinctClasses]
  | cons p ps ih =>
    have hp : ps.any p.sameClass = false ↔ p.classNum ∉ ps.map Pfx.classNum := by
      simp [List.any_eq_false, Pfx.sameClass_iff, @eq_comm _ p.classNum]
    simp [distinctClasses, ih, hp]

/-- At most five prefixes stand before a form, one of each class (R62). -/
theorem distinctClasses_length_le {ps : List Pfx} (h : distinctClasses ps = true) : ps.length ≤ 5 := by
  simpa using (distinctClasses_iff_nodup.1 h).length_le_card

/-- If the bytes run out among the prefixes, there are at most five of them, those already seen included. -/
theorem scanPrefixes_truncated {bs : List Byte} {seen : List Pfx} (hd : distinctClasses seen = true)
    (h : scanPrefixes bs seen = .truncated) : bs.length + seen.length ≤ 5 := by
  induction bs generalizing seen with
  | nil => simpa using distinctClasses_length_le hd
  | cons b bs ih =>
    simp only [scanPrefixes] at h
    split at h
    · simp at h
    · rename_i p hp
      split at h
      · simp at h
      · rename_i hnew
        have hd' : distinctClasses (p :: seen) = true := by simpa [distinctClasses, hd] using hnew
        rcases Decoded.andThen_eq_truncated h with h | ⟨ps, rest, -, h⟩
        · have hle := ih hd' h
          simp only [List.length_cons] at hle ⊢
          omega
        · simp at h

/-! ## ModRM, SIB and displacement -/

/-- A displacement has 0, 1, 2 or 4 bytes (R66). -/
theorem dispBytes_mem (a16 : Bool) (mod : BitVec 2) (rm : BitVec 3) (sib : Option Sib) :
    dispBytes a16 mod rm sib ∈ [0, 1, 2, 4] := by
  unfold dispBytes
  repeat' split
  all_goals decide

theorem takeDisp_truncated {n : Nat} {bs : List Byte} (hn : n ∈ [0, 1, 2, 4]) (h : takeDisp n bs = .truncated) :
    bs.length < 4 := by
  match bs with
  | [] => simp
  | [_] => simp
  | [_, _] => simp
  | [_, _, _] => simp
  | b0 :: b1 :: b2 :: b3 :: tail =>
    simp only [List.mem_cons, List.not_mem_nil, or_false] at hn
    rcases hn with rfl | rfl | rfl | rfl <;> simp [takeDisp] at h

/-- A SIB byte takes at most one byte. -/
theorem takeSib_length {follows : Bool} {bs rest : List Byte} {sib : Option Sib}
    (h : takeSib follows bs = .ok sib rest) : bs.length ≤ rest.length + 1 := by
  cases follows with
  | false =>
    injection h with _ h
    simp [h]
  | true =>
    cases bs with
    | nil => simp [takeSib] at h
    | cons b bs =>
      injection h with _ h
      simp [h]

theorem takeSib_truncated {follows : Bool} {bs : List Byte} (h : takeSib follows bs = .truncated) : bs = [] := by
  cases follows with
  | false => simp [takeSib] at h
  | true =>
    cases bs with
    | nil => rfl
    | cons b bs => simp [takeSib] at h

/-- ModRM, SIB and displacement take at most six bytes (R64 to R66). -/
theorem decodeRM_truncated {a16 : Bool} {bs : List Byte} (h : decodeRM a16 bs = .truncated) : bs.length ≤ 5 := by
  cases bs with
  | nil => simp
  | cons m bs =>
    rw [List.length_cons]
    rcases Decoded.andThen_eq_truncated h with h | ⟨sib, bs', hsib, h⟩
    · simp [takeSib_truncated h]
    · have hle := takeSib_length hsib
      rcases Decoded.andThen_eq_truncated h with h | ⟨disp, rest, -, h⟩
      · have hlt := takeDisp_truncated (dispBytes_mem _ _ _ _) h
        omega
      · simp at h

/-! ## The two formats -/

theorem decodeLegacyBody_truncated {mode : Mode} {ps : List Pfx} {rex : Option Rex} {op : Byte} {bs : List Byte}
    (h : decodeLegacyBody mode ps rex op bs = .truncated) : bs.length ≤ 5 := by
  unfold decodeLegacyBody at h
  split at h
  · simp at h
  · repeat' split at h
    case isFalse.isFalse.isFalse =>
      rcases Decoded.andThen_eq_truncated h with h | ⟨f, rest, -, h⟩
      · exact decodeRM_truncated h
      · simp at h
    all_goals simp at h

/-- A VEX form that runs out of bytes has no REX byte before it: with one it is #UD (60_exceptions.md R125). -/
theorem decodeVexBody_truncated {mode : Mode} {ps : List Pfx} {rex : Option Rex} {vex1 vex2 op : Byte} {bs : List Byte}
    (h : decodeVexBody mode ps rex vex1 vex2 op bs = .truncated) : rex = none ∧ bs.length ≤ 5 := by
  unfold decodeVexBody at h
  split at h
  · simp at h
  · split at h
    · simp at h
    · split at h
      · simp at h
      · rename_i hforbid
        split at h
        · simp at h
        · rcases Decoded.andThen_eq_truncated h with h | ⟨f, rest, -, h⟩
          · simp only [Bool.or_eq_true, not_or, Option.isSome_iff_ne_none, ne_eq, not_not] at hforbid
            exact ⟨hforbid.2, decodeRM_truncated h⟩
          · simp at h

theorem decodeC4_truncated {mode : Mode} {ps : List Pfx} {rex : Option Rex} {bs : List Byte}
    (h : decodeC4 mode ps rex bs = .truncated) : bs.length ≤ 2 ∨ (rex = none ∧ bs.length ≤ 8) := by
  match bs with
  | [] => simp
  | [_] => simp
  | [_, _] => simp
  | vex1 :: vex2 :: op :: tail =>
    simp only [decodeC4] at h
    split at h
    · simp at h
    · obtain ⟨hrex, hlen⟩ := decodeVexBody_truncated h
      simp only [List.length_cons]
      exact .inr ⟨hrex, by omega⟩

theorem decodeEscape_truncated {mode : Mode} {ps : List Pfx} {rex : Option Rex} {bs : List Byte}
    (h : decodeEscape mode ps rex bs = .truncated) : bs.length ≤ 7 := by
  match bs with
  | [] => simp
  | [_] => simp
  | b :: op :: tail =>
    simp only [decodeEscape] at h
    split at h
    · simp at h
    · have hlen := decodeLegacyBody_truncated h
      simp only [List.length_cons]
      omega

/-- A format that runs out of bytes was given at most nine, a REX byte before it included. -/
theorem decodeFormat_truncated {mode : Mode} {ps : List Pfx} {rex : Option Rex} {bs : List Byte}
    (h : decodeFormat mode ps rex bs = .truncated) : bs.length ≤ 8 ∨ (rex = none ∧ bs.length ≤ 9) := by
  cases bs with
  | nil => simp
  | cons b tail =>
    simp only [decodeFormat] at h
    rw [List.length_cons]
    split at h
    · rcases decodeC4_truncated h with hlen | ⟨hrex, hlen⟩
      · exact .inl (by omega)
      · exact .inr ⟨hrex, by omega⟩
    · split at h
      · have hlen := decodeEscape_truncated h
        exact .inl (by omega)
      · simp at h

theorem decodeAfterPrefixes_truncated {mode : Mode} {ps : List Pfx} {bs : List Byte}
    (h : decodeAfterPrefixes mode ps bs = .truncated) : bs.length ≤ 9 := by
  cases bs with
  | nil => simp
  | cons b tail =>
    simp only [decodeAfterPrefixes] at h
    split at h
    · rcases decodeFormat_truncated h with hlen | ⟨hrex, -⟩
      · rw [List.length_cons]
        omega
      · simp at hrex
    · rcases decodeFormat_truncated h with hlen | ⟨-, hlen⟩
      · omega
      · exact hlen

/-- The decoder runs out of bytes only where it was given fewer than 15 (R76, decision D27). -/
theorem decode_truncated {mode : Mode} {bs : List Byte} (h : decode mode bs = .truncated) : bs.length < 15 := by
  have hm : mode ≠ .other := by
    rintro rfl
    simp [decode] at h
  rw [decode_eq hm] at h
  rcases Decoded.andThen_eq_truncated h with h | ⟨ps, tail, hscan, h⟩
  · have hlen := scanPrefixes_truncated rfl h
    simp only [List.length_nil] at hlen
    omega
  · obtain ⟨hbytes, hd, -, -⟩ := scanPrefixes_eq_ok hscan
    have hps := distinctClasses_length_le hd
    have htail := decodeAfterPrefixes_truncated h
    rw [← hbytes, List.length_append, List.length_map]
    omega

end Sys2Proof

/-! SUPPORT. The step at the bytes of `pc` (60_exceptions.md R131 step 0): what the fetch answers, by what the decoder reads. -/

namespace Sys2Proof.Machine

open Sys2Proof

theorem atEnd_iff {s : State} : atEnd s = true ↔ s.cfg.endPc = some s.pc := by
  simp [atEnd]

/-- Where nothing stops the step before the fetch, it fetches an instruction and executes it. -/
theorem step_eq_fetch {s : State} (hd : s.cfg.debugArmed = false) (hm : ModeInSpec s) (he : s.cfg.endPc ≠ some s.pc) :
    step s = andThen (fetchInstr s) fun i => exec i s := by
  have hb : beforeFetch s = none := by
    simp [beforeFetch, hd, modeInSpec_iff.1 hm, atEnd_iff, he]
  simp [step, hb]

/-- Bytes that are #UD raise it at the fetch. -/
theorem fetchInstr_undefined {s : State} (h : decode s.cfg.mode (fetchWindow s).1 = .undefinedOpcode) :
    fetchInstr s = .fault .ud := by
  simp [fetchInstr, h, raise]

/-- Bytes that the decoder refuses are refused by the fetch, which names them. -/
theorem fetchInstr_refused {s : State} {why : DecodeRefusal}
    (h : decode s.cfg.mode (fetchWindow s).1 = .refused why) :
    fetchInstr s = .refused (.undecoded why (fetchWindow s).1) := by
  simp [fetchInstr, h]

/-- Where the decoder needs a byte more, what stopped the window short answers. -/
theorem fetchInstr_truncated {s : State} (h : decode s.cfg.mode (fetchWindow s).1 = .truncated) :
    fetchInstr s = andThen (fetchWindow s).2 fun _ => .refused (.undecoded .needsMoreBytes (fetchWindow s).1) := by
  simp [fetchInstr, h]

/-- A window that the decoder runs out of is short of 15 bytes, and so was stopped: by a byte that may not be fetched, or
at the top of the space. -/
theorem fetchWindow_of_truncated {s : State} (h : decode s.cfg.mode (fetchWindow s).1 = .truncated)
    (hpc : s.pc.toNat < 2 ^ linearBits s.cfg.mode) :
    (s.pc.toNat + (fetchWindow s).1.length < 2 ^ linearBits s.cfg.mode ∧
      ∃ e, fetchFault s (s.pc + BitVec.ofNat 64 (fetchWindow s).1.length) = some e ∧ (fetchWindow s).2 = .fault e) ∨
    (s.pc.toNat + (fetchWindow s).1.length = 2 ^ linearBits s.cfg.mode ∧ (fetchWindow s).2 = .refused .pcWraps) :=
  (fetchFrom_cases s 15 s.pc hpc).resolve_left (decode_truncated h).ne

end Sys2Proof.Machine

/-! CERTIFICATES. The obligations on the state (10_state.md): how the forms complete, what they write and leave, how `pc`
moves, and what a step does with the bytes at `pc`. -/

namespace Sys2Proof.Machine

open Sys2Proof

/-! ## Completion -/

/-- The rows of an enabled group complete, wherever their source can be read and the next `pc` does not wrap. -/
theorem rows_complete {g : Group} {rows : List Instr} {s : State} {S : Xmm} (hg : ∀ i ∈ rows, groupOf i = g)
    (hen : Enabled g s) : ∀ i ∈ rows, SourceIs s (formIn s i) (shapeOf i).nbytes S →
      NextPcInSpace s (formIn s i).len → ∃ t, CompletesIn i s t S :=
  fun i hi hS hpc => exec_completes (hg i hi ▸ hen) hS hpc

/-- Settles O16: the six forms are the rows of the legacy group. -/
theorem legacyFormsComplete : Obligations.LegacyFormsComplete := by
  intro e s S hen
  exact rows_complete (by simp [groupOf]) hen

/-- Settles O17: the six forms are the rows of the VEX.128 group. -/
theorem vex128FormsComplete : Obligations.Vex128FormsComplete := by
  intro e s S hen
  exact rows_complete (by simp [groupOf]) hen

/-- Settles O18: the six forms are the rows of the VEX.256 group. -/
theorem vex256FormsComplete : Obligations.Vex256FormsComplete := by
  intro e s S hen
  exact rows_complete (by simp [groupOf]) hen

/-- Settles O31: an enabled instruction with a readable source comes to its end, which refuses a next `pc` outside the space. -/
theorem wrappingPcIsRefused : Obligations.WrappingPcIsRefused := by
  intro i s S hen hS hpc
  obtain ⟨hu, ht, hm⟩ := hen.checks
  obtain ⟨src, hread, -⟩ := readSource_of_sourceIs hS (shapeOf_bytes i).2
  have hw : pcWraps s.cfg.mode s.pc (formIn s i).len = true :=
    Bool.of_not_eq_false fun hw => hpc (pcWraps_eq_false.1 hw)
  exact (exec_eq_finish hu ht hm hread).trans (finish_refused _ hw)

/-! ## The destination -/

/-- Settles O21: in each group bits 127:0 are the elements of the source's XMM view, and the pair alone fixes their widths. -/
theorem groupsAgreeOnTheLowHalf : Obligations.GroupsAgreeOnTheLowHalf := by
  intro k e f s t u v m hlegacy hvex ht hu hv
  have hvex' : (formIn s (vexInstr true k f)).src = .reg m := by
    rwa [formIn, instrForm_vexInstr] at hvex ⊢
  obtain ⟨hsw128, hdw128⟩ := shapeOf_vexInstr_bits false k f e
  obtain ⟨hsw256, hdw256⟩ := shapeOf_vexInstr_bits true k f e
  rw [exec_reg_lowHalf hlegacy ht, exec_reg_lowHalf hvex hu, exec_reg_lowHalf hvex' hv, hsw128, hdw128, hsw256, hdw256]
  exact ⟨rfl, rfl⟩

/-- Settles O22: the upper half is part of what every instruction that completes is known to do. -/
theorem upperHalfByGroup : Obligations.UpperHalfByGroup := by
  intro i s t h
  exact (exec_frame h).2

/-- Settles O23: the old destination is the same, and the result depends on the source's low bytes alone. -/
theorem highSourceBitsDoNotMatter : Obligations.HighSourceBitsDoNotMatter := by
  intro i s t m v hsrc hne hbytes h
  obtain ⟨hu, hts, hm, hw, src, hread, rfl⟩ := exec_eq_next h
  obtain ⟨-, hn⟩ := shapeOf_bytes i
  have hread' := readSource_reg (s := s.setV m v) (n := (shapeOf i).nbytes) hsrc
  have hnew := readSource_reg_lowBytes hsrc hn hread'
  rw [State.readV_setV_same] at hnew
  have hagree := (hnew.trans hbytes).trans (readSource_reg_lowBytes hsrc hn hread).symm
  have hx := (exec_eq_finish (s := s.setV m v) hu hts hm hread').trans (finish_next _ hw)
  refine ⟨_, hx, ?_⟩
  calc State.readV _ (formIn (s.setV m v) i).dst
      = formResult i (s.setV m v) _ := complete_readV_dst _ _ _
    _ = formResult i s src := formResult_congr (s.readV_setV_other m _ v hne.symm) hagree
    _ = _ := (complete_readV_dst _ _ _).symm

/-- Settles O29: the other vector registers are in the frame of every instruction. -/
theorem onlyTheDestinationChanges : Obligations.OnlyTheDestinationChanges := by
  intro i s t q h hq
  obtain ⟨⟨-, hother, -⟩, -⟩ := exec_frame h
  exact hother q hq

/-! ## What no form writes -/

/-- Settles O26: the general registers are in the frame of every instruction. -/
theorem noFormWritesGeneralRegisters : Obligations.NoFormWritesGeneralRegisters := by
  intro i s t h
  obtain ⟨⟨⟨hgpr, -⟩, -⟩, -⟩ := exec_frame h
  exact hgpr

/-- Settles O27: flags, control state, segment bases and configuration are in the frame of every instruction. -/
theorem noFormWritesFlagsOrControl : Obligations.NoFormWritesFlagsOrControl := by
  intro i s t h
  obtain ⟨⟨⟨-, hfl, hmx, hcr0, hcr4, hxcr0, hcpl, hseg, -, hcfg⟩, -⟩, -⟩ := exec_frame h
  exact ⟨hfl, hmx, hcr0, hcr4, hxcr0, hcpl, hseg, hcfg⟩

/-! ## `pc` -/

/-- An instruction that completes leaves `pc` at the sum, which is an address of the mode's space (10_state.md R27). -/
theorem exec_pc {i : Instr} {s t : State} (h : exec i s = .next t) :
    t.pc.toNat = s.pc.toNat + (encode i).length ∧ s.pc.toNat + (encode i).length < 2 ^ linearBits s.cfg.mode := by
  obtain ⟨-, -, -, hw, -⟩ := exec_eq_next h
  obtain ⟨⟨-, -, hpc⟩, -⟩ := exec_frame h
  rw [hpc, nextPc_toNat hw, encode_length s.cfg.mode i]
  exact ⟨rfl, pcWraps_eq_false.1 hw⟩

/-- Settles O30: the sum is below the top of the mode's space, so it is its own remainder. -/
theorem programCounterAdvancesByTheLength : Obligations.ProgramCounterAdvancesByTheLength := by
  intro i s t h
  obtain ⟨hpc, hlt⟩ := exec_pc h
  refine ⟨fun hm => ?m64, fun hm => ?m32⟩
  all_goals
    rw [hm] at hlt
    exact ⟨hpc.trans (Nat.mod_eq_of_lt hlt).symm, hlt⟩

/-! ## Registers and addresses of a mode -/

/-- Settles O12: in `M32` every register number is three encoded bits, and `B'` is an extension bit. -/
theorem m32NamesLowRegistersOnly : Obligations.M32NamesLowRegistersOnly := by
  refine ⟨fun i => ?registers, fun l k e b => ?extension⟩
  case registers =>
    obtain ⟨reg, ps, o, hdst, hsrc⟩ := instrForm_m32 i
    rw [hdst, hsrc]
    refine ⟨regNum_false_lt reg, ?_⟩
    by_cases hreg : o.mod = 3#2
    · simpa [srcOf, hreg] using regNum_false_lt o.rm
    · simpa [srcOf, hreg] using memOp_registers_lt .m32 ps o
  case extension =>
    rw [instrForm_vexInstr, instrForm_vexInstr]
    rfl

/-- Settles O14: each mode's sum, read as a number. -/
theorem linearAddressAddsTheSegmentBase : Obligations.LinearAddressAddsTheSegmentBase := by
  intro s g ea
  refine ⟨fun hm => ?m64, fun hm => ?m32⟩
  case m64 =>
    rw [linearAddr_m64 hm, BitVec.toNat_add]
    split <;> rfl
  case m32 =>
    rw [linearAddr_m32 hm, BitVec.toNat_setWidth, BitVec.toNat_setWidth, BitVec.toNat_add]
    omega

/-! ## The step -/

/-- Settles O44: the step passes on what the fetch answers, and only a window stopped short runs out of bytes. -/
theorem undecodedBytesStopTheStep : Obligations.UndecodedBytesStopTheStep := by
  intro s hd hm he
  have hstep := step_eq_fetch hd hm he
  refine ⟨fun h => ?undefined, fun why h => ?refused, fun h hpc => ?truncated⟩
  case undefined => rw [hstep, fetchInstr_undefined h, andThen_fault]
  case refused => rw [hstep, fetchInstr_refused h, andThen_refused]
  case truncated =>
    rcases fetchWindow_of_truncated h hpc with ⟨hin, e, hfault, hstop⟩ | ⟨htop, hstop⟩
    · rw [if_pos hin]
      exact ⟨e, hfault, by rw [hstep, fetchInstr_truncated h, hstop, andThen_fault, andThen_fault]⟩
    · rw [if_neg htop.ge.not_gt, hstep, fetchInstr_truncated h, hstop, andThen_refused, andThen_refused]

/-- Settles O46: a step is final and stays, or has executed what the decoder read, which is well-formed, in its frame. -/
theorem stepChangesOneVectorRegisterAndPc : Obligations.StepChangesOneVectorRegisterAndPc := by
  intro s t h
  obtain ⟨-, -, ⟨hend, rfl⟩ | ⟨hend, i, hfetch, hx⟩⟩ := step_eq_next h
  · exact .inl ⟨atEnd_iff.1 hend, rfl⟩
  · have hne : s.cfg.endPc ≠ some s.pc := fun he => by simp [atEnd_iff.2 he] at hend
    obtain ⟨rest, hdec⟩ := fetchInstr_eq_next hfetch
    exact .inr ⟨hne, i, rest, hdec, decode_wf hdec, hx, exec_frame hx⟩

end Sys2Proof.Machine

/-! SUPPORT. Addresses as integers (20_memory.md R49, R51): truncation is the remainder modulo 2^asz, machine sums and
products are those of integers modulo 2^64, and a canonical address by its bits. -/

namespace Sys2Proof.Machine

open Sys2Proof

/-! ## The effective address -/

theorem truncTo_toNat (asz : AddrSize) (v : Word) : (truncTo asz v).toNat = v.toNat % 2 ^ asz.bits := by
  have hv := v.isLt
  cases asz <;> simp only [truncTo, AddrSize.bits, BitVec.toNat_setWidth] <;> omega

/-- What holds modulo 2^64 holds modulo 2^asz. -/
theorem AddrSize.pow_bits_dvd (asz : AddrSize) : (2 ^ asz.bits : Int) ∣ 2 ^ 64 :=
  pow_dvd_pow 2 (by cases asz <;> decide)

theorem toNat_add_modEq (x y : Word) : ((x + y).toNat : Int) ≡ x.toNat + y.toNat [ZMOD 2 ^ 64] := by
  rw [BitVec.toNat_add]
  exact_mod_cast Nat.mod_modEq _ _

theorem toNat_mul_modEq (x y : Word) : ((x * y).toNat : Int) ≡ x.toNat * y.toNat [ZMOD 2 ^ 64] := by
  rw [BitVec.toNat_mul]
  exact_mod_cast Nat.mod_modEq _ _

theorem toNat_ofNat_modEq (n : Nat) : ((BitVec.ofNat 64 n).toNat : Int) ≡ n [ZMOD 2 ^ 64] := by
  rw [BitVec.toNat_ofNat]
  exact_mod_cast Nat.mod_modEq _ _

theorem toNat_ofInt_modEq (d : Int) : ((BitVec.ofInt 64 d).toNat : Int) ≡ d [ZMOD 2 ^ 64] := by
  rw [BitVec.toNat_ofInt, Int.toNat_of_nonneg (Int.emod_nonneg _ (by decide))]
  exact_mod_cast Int.mod_modEq _ _

/-- The effective address is the integer sum of its parts modulo 2^asz (R49). -/
theorem effectiveAddr_eq_sum (s : State) (o : MemOp) (len : Nat) :
    ((effectiveAddr s o len).toNat : Int) =
      ((addrReg s o.asz o.base).toNat + (addrReg s o.asz o.index).toNat * o.scale + o.disp
        + (if o.riprel then ((nextPc s.cfg.mode s.pc len).toNat : Int) else 0)) % 2 ^ o.asz.bits := by
  have hindex := (toNat_mul_modEq (addrReg s o.asz o.index) (BitVec.ofNat 64 o.scale)).trans
    ((toNat_ofNat_modEq o.scale).mul_left _)
  have hbase := (toNat_add_modEq (addrReg s o.asz o.base) _).trans (hindex.add_left _)
  have hdisp := (toNat_add_modEq _ (BitVec.ofInt 64 o.disp)).trans (hbase.add (toNat_ofInt_modEq o.disp))
  have hsum := ((toNat_add_modEq _ (if o.riprel then nextPc s.cfg.mode s.pc len else 0)).trans
    (hdisp.add_right _)).of_dvd o.asz.pow_bits_dvd
  rw [effectiveAddr, truncTo_toNat, Int.natCast_emod]
  simpa [apply_ite, Int.ModEq] using hsum

/-- The bits `asz-1:0` of a register are its value modulo 2^asz, and a register that is not there counts 0. -/
theorem addrReg_toNat (s : State) (asz : AddrSize) (r : Option GReg) :
    ((addrReg s asz r).toNat : Int) = r.elim 0 fun g => ((s.gpr[g]).toNat : Int) % 2 ^ asz.bits := by
  cases r with
  | none => rfl
  | some g => simp [addrReg, truncTo_toNat]

/-! ## Canonical addresses -/

/-- An arithmetic shift right has only bits `v` exactly where the bits that it keeps are all `v`. -/
theorem sshiftRight_eq_iff {a c : Word} {n : Nat} {v : Bool} (hn : n < 64) (hc : ∀ b, b < 64 → c.getLsbD b = v) :
    a.sshiftRight n = c ↔ ∀ b, n ≤ b → b < 64 → a.getLsbD b = v := by
  refine ⟨fun h b hnb hb => ?_, fun h => BitVec.eq_of_getLsbD_eq fun b hb => ?_⟩
  · have hbit := BitVec.getLsbD_sshiftRight a n (b - n)
    rw [h, hc _ (by omega), Nat.add_sub_cancel' hnb, if_pos hb] at hbit
    simpa [show ¬ 64 ≤ b - n by omega] using hbit.symm
  · have hmsb : a.msb = v := h 63 (by omega) (by omega)
    rw [hc b hb, BitVec.getLsbD_sshiftRight, hmsb]
    by_cases hkept : n + b < 64
    · simp only [if_pos hkept, h (n + b) (by omega) hkept, hb.not_ge, decide_false, Bool.not_false, Bool.true_and]
    · simp [hkept, hb]

end Sys2Proof.Machine

/-! SUPPORT. How a memory operand stops a form, in the order of 20_memory.md R52: it wraps, a check forbids it, or it is device
memory; and what `MemCheck` can answer. -/

namespace Sys2Proof.Machine

open Sys2Proof

/-! ## `MemCheck` and the alignment check -/

/-- Protection is reported by segment (60_exceptions.md R127). -/
theorem protectionFault_eq (g : Seg) : protectionFault g = if g = .ss then .ss else .gp := by
  cases g <;> rfl

/-- An access is canonical exactly where each of its bytes is (20_memory.md R51). -/
theorem allCanonical_iff {law n : Nat} {lin : Word} :
    allCanonical law lin n = true ↔ ∀ j, j < n → canonical law (lin + BitVec.ofNat 64 j) = true := by
  induction n with
  | zero => simp [allCanonical]
  | succ n ih => simp only [allCanonical, Bool.and_eq_true, ih, Nat.forall_lt_succ_right]

/-- `MemCheck` faults as protection, or with a page fault that the oracle reports. -/
theorem memCheck_eq_some {s : State} {a : Access} {f : Fault} (h : memCheck s a = some f) :
    f = protectionFault a.seg ∨ ∃ code, oracleVerdict s.cfg.memCheck a = .page code ∧ f = .pf code := by
  unfold memCheck at h
  split at h
  · simp at h
  · exact .inl (Option.some.inj h).symm
  · rename_i code _ hv
    exact .inr ⟨code, hv, (Option.some.inj h).symm⟩
  · rename_i code _ hv
    split at h
    · exact .inl (Option.some.inj h).symm
    · exact .inr ⟨code, hv, (Option.some.inj h).symm⟩
  · exact .inl (Option.some.inj h).symm

/-- In `M64` an access that is not canonical throughout faults, whatever the oracle answers (log 8). -/
theorem memCheck_isSome_of_not_canonical {s : State} {a : Access} (hm : s.cfg.mode = .m64)
    (hc : allCanonical s.cfg.law a.lin a.nbytes = false) : (memCheck s a).isSome = true := by
  have hb : (s.cfg.mode == .m64 && !allCanonical s.cfg.law a.lin a.nbytes) = true := by simp [hm, hc]
  rw [memCheck, hb]
  cases oracleVerdict s.cfg.memCheck a with
  | ok => rfl
  | protection => rfl
  | page code => cases Config.protectionBeforePage s.steps <;> rfl

/-- The alignment check does not raise while it is disabled or on an aligned operand. -/
theorem alignmentFaults_eq_false {s : State} {lin : Word} {n : Nat}
    (h : s.alignmentChecking = false ∨ lin.toNat % n = 0) : alignmentFaults s lin n = false :=
  h.elim (alignmentFaults_disabled lin n) alignmentFaults_aligned

/-- Where the alignment check does not raise, the operand raises what `MemCheck` finds. -/
theorem operandFault_of_aligned {s : State} {a : Access} (h : alignmentFaults s a.lin a.nbytes = false) :
    operandFault s a = memCheck s a := by
  unfold operandFault
  rw [h]
  cases memCheck s a <;> rfl

/-- Where `MemCheck` admits an operand that the alignment check does not, #AC(0) is raised. -/
theorem operandFault_ac {s : State} {a : Access} (hc : memCheck s a = none)
    (ha : alignmentFaults s a.lin a.nbytes = true) : operandFault s a = some .ac := by
  simp [operandFault, hc, ha]

/-- Where `MemCheck` faults, its fault is raised or #AC(0) (decision D18, log 10). -/
theorem operandFault_or_ac {s : State} {a : Access} {f : Fault} (hc : memCheck s a = some f) :
    operandFault s a = some f ∨ operandFault s a = some .ac := by
  unfold operandFault
  rw [hc]
  cases alignmentFaults s a.lin a.nbytes with
  | false => exact .inl rfl
  | true => dsimp only; split <;> simp

/-! ## What stops `memRead` -/

section

variable {s : State} {asz : AddrSize} {seg : Seg} {ea : Word} {n : Nat}

/-- An operand that wraps is refused before any check (R50, R52). -/
theorem memRead_wraps (hw : operandWraps s.cfg.mode asz ea (linearAddr s seg ea) n = true) :
    memRead s asz seg ea n = .refused .operandWraps :=
  if_pos hw

/-- The fault of an operand in the space is raised. -/
theorem memRead_fault {f : Fault} (hw : operandWraps s.cfg.mode asz ea (linearAddr s seg ea) n = false)
    (hf : operandFault s (dataAccess s seg ea n) = some f) : memRead s asz seg ea n = .fault f := by
  have hlin : (dataAccess s seg ea n).lin = linearAddr s seg ea := rfl
  simp [memRead, hlin, hw, hf, raise]

/-- An operand in device memory is refused once every check has passed (R42). -/
theorem memRead_device (hw : operandWraps s.cfg.mode asz ea (linearAddr s seg ea) n = false)
    (hf : operandFault s (dataAccess s seg ea n) = none)
    (hd : inDevice s.cfg.devices (linearAddr s seg ea) n = true) :
    memRead s asz seg ea n = .refused .deviceMemory := by
  have hlin : (dataAccess s seg ea n).lin = linearAddr s seg ea := rfl
  simp [memRead, hlin, hw, hf, hd]

end

/-! ## An enabled form whose operand stops it -/

/-- `MemCheck`'s arguments for the operand of an instruction of `len` bytes. -/
abbrev operandAccess (s : State) (o : MemOp) (len nbytes : Nat) : Access :=
  dataAccess s o.seg (effectiveAddr s o len) nbytes

section

variable {i : Instr} {s : State} {o : MemOp}

/-- An enabled memory-source form reads its operand and goes on to its end, `finish` (60_exceptions.md R131). -/
theorem exec_eq_memRead (hen : Enabled (groupOf i) s) (hsrc : (formIn s i).src = .mem o) :
    exec i s = andThen (memRead s o.asz o.seg (effectiveAddr s o (formIn s i).len) (shapeOf i).nbytes)
      fun src => finish s (formIn s i) (formResult i s src) := by
  obtain ⟨hu, ht, hm⟩ := hen.checks
  rw [exec_eq_runForm, ← readSource_mem hsrc]
  simp [runForm, checkEnabled_eq_none.2 ⟨groupUndefined_eq_false.2 hu, ht⟩, hm]

/-- The fault of an operand in the space is the fault of the form. -/
theorem exec_operandFault {f : Fault} (hen : Enabled (groupOf i) s) (hsrc : (formIn s i).src = .mem o)
    (hspace : OperandInSpace s o (formIn s i).len (shapeOf i).nbytes)
    (hf : operandFault s (operandAccess s o (formIn s i).len (shapeOf i).nbytes) = some f) :
    exec i s = .fault f := by
  rw [exec_eq_memRead hen hsrc, memRead_fault (operandWraps_eq_false.2 hspace) hf, andThen_fault]

end

end Sys2Proof.Machine

/-! SUPPORT. Two states in which a form does the same: they agree in what the form's checks and its result read
(20_memory.md R41, 60_exceptions.md R140). -/

namespace Sys2Proof.Machine

open Sys2Proof

@[simp] theorem complete_vreg (s : State) (f : Form) (v : Vec) : (complete s f v).vreg = s.vreg.set f.dst v := rfl

/-- The states agree in what a form reads before and beside its source: the vector registers, `pc`, the control bits of the
enabling checks, the mode and the feature flags. -/
structure SameCore (s s' : State) : Prop where
  vreg : s'.vreg = s.vreg
  pc : s'.pc = s.pc
  cr0 : s'.cr0 = s.cr0
  cr4 : s'.cr4 = s.cr4
  xcr0 : s'.xcr0 = s.xcr0
  mode : s'.cfg.mode = s.cfg.mode
  sse41 : s'.cfg.hasSse41 = s.cfg.hasSse41
  avx : s'.cfg.hasAvx = s.cfg.hasAvx
  avx2 : s'.cfg.hasAvx2 = s.cfg.hasAvx2

namespace SameCore

variable {s s' : State}

theorem undefinedCondition_iff (h : SameCore s s') (g : Group) : UndefinedCondition g s' ↔ UndefinedCondition g s := by
  cases g <;> simp only [UndefinedCondition, State.cr0Em, State.cr4Osfxsr, State.cr4Osxsave, State.xcr0Sse,
    State.xcr0Avx, h.cr0, h.cr4, h.xcr0, h.sse41, h.avx, h.avx2]

theorem formIn_eq (h : SameCore s s') (i : Instr) : formIn s' i = formIn s i := by
  rw [formIn, h.mode]

theorem readV_eq (h : SameCore s s') (q : VReg) : s'.readV q = s.readV q := by
  rw [State.readV, State.readV, h.vreg]

/-- An instruction that completes in one of the states completes in the other with the same vector registers and `pc`,
where it reads a source value with the same bytes. -/
theorem exec_next (h : SameCore s s') {i : Instr} {t : State} {src src' : Xmm} (hx : exec i s = .next t)
    (hread : readSource s (formIn s i) (shapeOf i).nbytes = .next src)
    (hread' : readSource s' (formIn s i) (shapeOf i).nbytes = .next src')
    (hbytes : LowBytesAgree (shapeOf i).nbytes src' src) :
    ∃ t', exec i s' = .next t' ∧ t'.vreg = t.vreg ∧ t'.pc = t.pc := by
  obtain ⟨hu, ht, hm, hw, src₀, hread₀, rfl⟩ := exec_eq_next hx
  obtain rfl : src₀ = src := by simpa [hread₀] using hread
  have hu' := (not_congr (h.undefinedCondition_iff (groupOf i))).2 hu
  have ht' : s'.cr0Ts = false := by rwa [State.cr0Ts, h.cr0]
  have hresult : formResult i s' src' = formResult i s src₀ :=
    formResult_congr (by rw [h.formIn_eq, h.readV_eq]) hbytes
  rw [← h.formIn_eq] at hread'
  rw [← h.mode, ← h.pc, ← h.formIn_eq] at hw
  refine ⟨_, (exec_eq_finish hu' ht' (h.mode ▸ hm) hread').trans (finish_next _ hw), ?_, ?_⟩
  · rw [complete_vreg, complete_vreg, h.vreg, h.formIn_eq, hresult]
  · rw [complete_pc, complete_pc, h.mode, h.pc, h.formIn_eq]

end SameCore

/-! ## Another memory -/

/-- A memory that agrees on the operand's bytes gives a source value with the same bytes, and the checks do not read
memory (20_memory.md R40, R52). -/
theorem memRead_of_same_bytes {s : State} {asz : AddrSize} {seg : Seg} {ea : Word} {n : Nat} {src : Xmm} {m : Memory}
    (h : memRead s asz seg ea n = .next src) (hn : n ≤ 16)
    (hbytes : ∀ j, j < n → Memory.read m ((linearAddr s seg ea).toNat + j) =
      Memory.read s.mem ((linearAddr s seg ea).toNat + j)) :
    ∃ src', memRead { s with mem := m } asz seg ea n = .next src' ∧ LowBytesAgree n src' src := by
  obtain ⟨hw, hf, hd, rfl⟩ := memRead_eq_next h
  refine ⟨_, memRead_next (s := { s with mem := m }) hw hf hd, fun j hj => ?_⟩
  exact (readLE_byte m _ hj hn).trans ((hbytes j hj).trans (readLE_byte s.mem _ hj hn).symm)

end Sys2Proof.Machine

/-! SUPPORT. Runs (70_reset_and_hazards.md R153): what a step keeps, a run that ends final keeps. -/

namespace Sys2Proof.Machine

open Sys2Proof

theorem SameButVectorsAndPc.refl (s : State) : SameButVectorsAndPc s s :=
  ⟨rfl, rfl, rfl, rfl, rfl, rfl, rfl, rfl, rfl, rfl⟩

theorem SameButVectorsAndPc.trans {s t u : State} (hst : SameButVectorsAndPc s t) (htu : SameButVectorsAndPc t u) :
    SameButVectorsAndPc s u := by
  obtain ⟨h1, h2, h3, h4, h5, h6, h7, h8, h9, h10⟩ := hst
  obtain ⟨g1, g2, g3, g4, g5, g6, g7, g8, g9, g10⟩ := htu
  exact ⟨g1.trans h1, g2.trans h2, g3.trans h3, g4.trans h4, g5.trans h5, g6.trans h6, g7.trans h7, g8.trans h8,
    g9.trans h9, g10.trans h10⟩

/-- A step keeps all but the vector registers and `pc` (20_memory.md R55). -/
theorem step_sameButVectorsAndPc {s t : State} (h : step s = .next t) : SameButVectorsAndPc s t := by
  obtain ⟨-, -, ⟨-, rfl⟩ | ⟨-, i, -, hx⟩⟩ := step_eq_next h
  · exact .refl t
  · obtain ⟨⟨hsame, -⟩, -⟩ := exec_frame hx
    exact hsame

/-- A run ends final in its first state, which is final, or goes on from the next state. -/
theorem run_eq_final {fuel : Nat} {s t : State} (h : run fuel s = .final t) :
    (isFinal s = true ∧ t = s) ∨ ∃ fuel' u, fuel = fuel' + 1 ∧ step s = .next u ∧ run fuel' u = .final t := by
  cases hfin : isFinal s with
  | true =>
    cases fuel <;> exact .inl ⟨rfl, by simpa [run, hfin, eq_comm] using h⟩
  | false =>
    cases fuel with
    | zero => simp [run, hfin] at h
    | succ fuel =>
      cases hstep : step s with
      | next u => exact .inr ⟨fuel, u, rfl, rfl, by simpa [run, hfin, hstep] using h⟩
      | fault e => simp [run, hfin, hstep] at h
      | refused r => simp [run, hfin, hstep] at h

/-- What is kept by every step is kept by every run that ends final, in a final state (R153). -/
theorem run_final_induction {rel : State → State → Prop} (refl : ∀ s, rel s s)
    (trans : ∀ {s t u}, rel s t → rel t u → rel s u) (hstep : ∀ {s t}, step s = .next t → rel s t) {fuel : Nat}
    {s t : State} (h : run fuel s = .final t) : isFinal t = true ∧ rel s t := by
  induction fuel generalizing s with
  | zero =>
    obtain ⟨hfin, rfl⟩ | ⟨_, _, hz, -⟩ := run_eq_final h
    · exact ⟨hfin, refl t⟩
    · simp at hz
  | succ fuel ih =>
    obtain ⟨hfin, rfl⟩ | ⟨_, u, hf, hu, hrun⟩ := run_eq_final h
    · exact ⟨hfin, refl t⟩
    · obtain rfl := Nat.succ.inj hf
      obtain ⟨hfin, hrel⟩ := ih hrun
      exact ⟨hfin, trans (hstep hu) hrel⟩

/-- A final state is at `END`. -/
theorem endPc_of_isFinal {s : State} (h : isFinal s = true) : s.cfg.endPc = some s.pc := by
  simp only [isFinal, Bool.and_eq_true] at h
  obtain ⟨-, hend⟩ := h
  exact atEnd_iff.1 hend

end Sys2Proof.Machine

/-! SUPPORT. The decoder reads back what the encoder writes (30_encoding.md R60 to R73, R83): each step of the procedure on the
bytes of its layout, and how many bytes an instruction has. -/

namespace Sys2Proof

open Sys2Proof.Machine

/-! ## ModRM, SIB and displacement -/

/-- The SIB byte is read back, and where there is none nothing is read (R65). -/
theorem takeSib_bytes (sib : Option Sib) (rest : List Byte) :
    takeSib sib.isSome ((sib.map Sib.byte).toList ++ rest) = .ok sib rest := by
  cases sib with
  | none => rfl
  | some sib =>
    obtain ⟨hscale, hindex, hbase⟩ := fields_of_byte sib.scale sib.index sib.base
    simp [takeSib, Sib.byte, hscale, hindex, hbase]

/-- Operand 2 is read back with the destination field (R64 to R69). -/
theorem decodeRM_bytes {a16 : Bool} {o : RM} (hwf : o.wf a16 = true) (reg : BitVec 3) (rest : List Byte) :
    decodeRM a16 (o.bytes reg ++ rest) = .ok (reg, o) rest := by
  obtain ⟨hmod, hreg, hrm⟩ := fields_of_byte o.mod reg o.rm
  obtain ⟨hsib, hfits⟩ : o.sib.isSome = sibFollows a16 o.mod o.rm ∧ o.dispFits a16 = true := by
    rwa [RM.wf, Bool.and_eq_true, beq_iff_eq] at hwf
  have hdisp : o.disp.bytes.length = dispBytes a16 o.mod o.rm o.sib :=
    o.disp.bytes_length.trans (dispFits_iff.1 hfits)
  simp only [RM.bytes, List.cons_append, List.append_assoc, decodeRM, hmod, hreg, hrm, ← hsib, takeSib_bytes,
    Decoded.andThen_ok, ← hdisp, takeDisp_bytes]

/-! ## The two formats -/

/-- A legacy form is well-formed exactly under the conditions of R62 and R63. -/
theorem LegacyEnc.wf_iff {mode : Mode} {e : LegacyEnc} :
    e.wf mode = true ↔ mode ≠ .other ∧ distinctClasses e.pfx = true ∧ e.pfx.contains .opSize = true ∧
      e.pfx.all Pfx.harmless = true ∧ (mode = .m64 ∨ e.rex = none) ∧ e.rm.wf (addressSize16 mode e.pfx) = true := by
  simp only [LegacyEnc.wf, uses16, addressSize16, Bool.and_eq_true, Bool.or_eq_true, bne_iff_ne, beq_iff_eq,
    Option.isNone_iff_eq_none, and_assoc]

/-- A VEX form is well-formed exactly under the conditions of R62 and R73. -/
theorem VexEnc.wf_iff {mode : Mode} {e : VexEnc} :
    e.wf mode = true ↔ mode ≠ .other ∧ distinctClasses e.pfx = true ∧ e.pfx.contains .opSize = false ∧
      e.pfx.all Pfx.harmless = true ∧ (mode = .m64 ∨ e.r = false ∧ e.x = false) ∧
      e.rm.wf (addressSize16 mode e.pfx) = true := by
  simp only [VexEnc.wf, uses16, addressSize16, Bool.and_eq_true, Bool.or_eq_true, bne_iff_ne, beq_iff_eq,
    Bool.not_eq_true', and_assoc]

/-- Among harmless prefixes there is no LOCK, F2 or F3, and 66h is the only one that C4h forbids (R62, R125). -/
theorem any_eq_false_of_harmless {ps : List Pfx} (h : ps.all Pfx.harmless = true) :
    ps.any Pfx.isRepeat = false ∧ ps.contains .lock = false ∧
      (ps.contains .opSize = false → ps.any Pfx.forbidsVex = false) := by
  induction ps with
  | nil => exact ⟨rfl, rfl, fun _ => rfl⟩
  | cons p ps ih =>
    obtain ⟨hp, hps⟩ : p.harmless = true ∧ ps.all Pfx.harmless = true := by simpa using h
    obtain ⟨hrep, hlock, hvex⟩ := ih hps
    cases p <;> simp_all [Pfx.harmless, Pfx.isRepeat, Pfx.forbidsVex]

/-- A well-formed legacy form is read back after its prefixes and REX (R60 to R63). -/
theorem decodeFormat_legacy {mode : Mode} {e : LegacyEnc} (hwf : e.wf mode = true) (k : Pair) (rest : List Byte) :
    decodeFormat mode e.pfx e.rex (0x0F :: 0x38 :: k.opcode :: (e.rm.bytes e.reg ++ rest)) =
      .ok (legacyInstr k e) rest := by
  obtain ⟨-, -, hsize, hharm, -, hrm⟩ := LegacyEnc.wf_iff.1 hwf
  obtain ⟨hrep, hlock, -⟩ := any_eq_false_of_harmless hharm
  calc decodeFormat mode e.pfx e.rex (0x0F :: 0x38 :: k.opcode :: (e.rm.bytes e.reg ++ rest))
      = decodeLegacyBody mode e.pfx e.rex k.opcode (e.rm.bytes e.reg ++ rest) := rfl
    _ = .ok (legacyInstr k e) rest := by
      simp only [decodeLegacyBody, pairOf_opcode, hrep, hsize, hlock, Bool.not_true, Bool.false_eq_true, if_false,
        decodeRM_bytes hrm, Decoded.andThen_ok]

/-- In `M32` bits 7:6 of a well-formed form's `vex1` are 11b, so that C4h is not LES (R73). -/
theorem vex1_not_les {mode : Mode} {e : VexEnc} (hwf : e.wf mode = true) :
    (mode != .m64 && e.vex1.extractLsb' 6 2 != 3#2) = false := by
  obtain ⟨-, -, -, -, hext, -⟩ := VexEnc.wf_iff.1 hwf
  obtain ⟨-, -, -, -, hhigh⟩ := vex1_fields e
  rcases hext with rfl | ⟨hr, hx⟩
  · rfl
  · rw [hhigh, hr, hx]
    exact Bool.and_false _

/-- A well-formed VEX form is read back after its prefixes (R71 to R73). -/
theorem decodeFormat_vex {mode : Mode} {e : VexEnc} (hwf : e.wf mode = true) (l : Bool) (k : Pair)
    (rest : List Byte) :
    decodeFormat mode e.pfx none (0xC4 :: e.vex1 :: e.vex2 l :: k.opcode :: (e.rm.bytes e.reg ++ rest)) =
      .ok (vexInstr l k e) rest := by
  obtain ⟨-, -, hsize, hharm, -, hrm⟩ := VexEnc.wf_iff.1 hwf
  obtain ⟨-, -, hvex⟩ := any_eq_false_of_harmless hharm
  obtain ⟨hmmmmm, hr, hx, hb, -⟩ := vex1_fields e
  obtain ⟨hpp, hl, hvvvv, hw⟩ := vex2_fields l e
  calc decodeFormat mode e.pfx none (0xC4 :: e.vex1 :: e.vex2 l :: k.opcode :: (e.rm.bytes e.reg ++ rest))
      = decodeVexBody mode e.pfx none e.vex1 (e.vex2 l) k.opcode (e.rm.bytes e.reg ++ rest) :=
        if_neg (Bool.eq_false_iff.1 (vex1_not_les hwf))
    _ = .ok (vexInstr l k e) rest := by
      simp only [decodeVexBody, pairOf_opcode, hmmmmm, hpp, hvex hsize, hvvvv, hr, hx, hb, hl, hw, bne_self_eq_false,
        Option.isSome_none, Bool.or_self, Bool.not_not, Bool.false_eq_true, if_false, decodeRM_bytes hrm,
        Decoded.andThen_ok]

/-! ## The whole procedure -/

/-- After prefixes of distinct classes, and a REX byte in `M64` alone, the decoder selects the format at the first byte that is
neither (R83 steps 1 to 3). -/
theorem decode_prefixes {mode : Mode} {ps : List Pfx} {rex : Option Rex} {b : Byte} (hm : mode ≠ .other)
    (hd : distinctClasses ps = true) (hrex : mode = .m64 ∨ rex = none) (hb : prefixOf b = none)
    (hbrex : isRex b = false) (rest : List Byte) :
    decode mode (ps.map Pfx.byte ++ ((rex.map Rex.byte).toList ++ b :: rest)) =
      decodeFormat mode ps rex (b :: rest) := by
  rw [decode_eq hm]
  cases rex with
  | none =>
    simp [scanPrefixes_bytes ps [] b rest hd (by simp) hb, decodeAfterPrefixes, hbrex]
  | some r =>
    obtain rfl : mode = .m64 := by simpa using hrex
    obtain ⟨hisRex, hbits⟩ := rexOf_byte r
    simp [scanPrefixes_bytes ps [] r.byte (b :: rest) hd (by simp) (rex_byte_ne r), decodeAfterPrefixes, hisRex, hbits]

/-- Every well-formed instruction is read back from its bytes, whatever follows them (R60 to R73, R83). -/
theorem decode_encode {mode : Mode} {i : Instr} (hwf : i.wf mode = true) (rest : List Byte) :
    decode mode (encode i ++ rest) = .ok i rest := by
  cases i using instr_byRow with
  | legacy k e =>
    rw [wf_legacyInstr] at hwf
    obtain ⟨hm, hd, -, -, hrex, -⟩ := LegacyEnc.wf_iff.1 hwf
    rw [encode_legacyInstr, LegacyEnc.bytes, List.append_assoc, List.append_assoc]
    exact (decode_prefixes hm hd hrex (by decide) (by decide) _).trans (decodeFormat_legacy hwf k rest)
  | vex l k e =>
    rw [wf_vexInstr] at hwf
    obtain ⟨hm, hd, -⟩ := VexEnc.wf_iff.1 hwf
    rw [encode_vexInstr, VexEnc.bytes, List.append_assoc]
    exact (decode_prefixes (rex := none) hm hd (.inr rfl) (by decide) (by decide) _).trans
      (decodeFormat_vex hwf l k rest)

/-! ## Lengths -/

/-- ModRM, SIB and displacement are at most six bytes (R76). -/
theorem rmLength_le (o : RM) : rmLength o ≤ 6 := by
  have hdisp : o.disp.size ≤ 4 := by cases o.disp <;> simp [Disp.size]
  unfold rmLength
  split <;> omega

/-- A well-formed instruction fits the fetch window: at most five prefixes, four bytes, and operand 2 (R76, decision D14). -/
theorem encode_length_le {mode : Mode} {i : Instr} (hwf : i.wf mode = true) : (encode i).length ≤ 15 := by
  cases i using instr_byRow with
  | legacy k e =>
    rw [wf_legacyInstr] at hwf
    obtain ⟨-, hd, -⟩ := LegacyEnc.wf_iff.1 hwf
    have hpfx := distinctClasses_length_le hd
    have hrm := rmLength_le e.rm
    rw [encode_legacyInstr, legacy_bytes_length, legacyLength]
    split <;> omega
  | vex l k e =>
    rw [wf_vexInstr] at hwf
    obtain ⟨-, hd, -⟩ := VexEnc.wf_iff.1 hwf
    have hpfx := distinctClasses_length_le hd
    have hrm := rmLength_le e.rm
    rw [encode_vexInstr, vex_bytes_length, vexLength]
    omega

/-- An instruction is well-formed only in a mode of the spec (R5). -/
theorem Instr.mode_ne_other_of_wf {mode : Mode} {i : Instr} (hwf : i.wf mode = true) : mode ≠ .other := by
  cases i using instr_byRow with
  | legacy k e => exact (LegacyEnc.wf_iff.1 (wf_legacyInstr mode k e ▸ hwf)).1
  | vex l k e => exact (VexEnc.wf_iff.1 (wf_vexInstr mode l k e ▸ hwf)).1

end Sys2Proof

/-! CERTIFICATES. The obligations on memory (20_memory.md): the operand's address, what a form reads, which fault or refusal
its operand ends in, the stored instruction, and what a final run keeps. -/

namespace Sys2Proof.Machine

open Sys2Proof

/-! ## Addresses -/

/-- Settles O13: the machine's sum with each register read modulo 2^asz. -/
theorem effectiveAddressIsTheSum : Obligations.EffectiveAddressIsTheSum := by
  intro s o len
  rw [effectiveAddr_eq_sum, addrReg_toNat, addrReg_toNat]
  cases o.base <;> cases o.index <;> rfl

/-- Settles O38: the shift by LAW-1 leaves only zeros or only ones, and one of the two is the sign bit. -/
theorem canonicalMeansEqualHighBits : Obligations.CanonicalMeansEqualHighBits := by
  intro law a h1 h64
  have hz := sshiftRight_eq_iff (a := a) (c := 0) (n := law - 1) (v := false) (by omega) (by simp)
  have ho := sshiftRight_eq_iff (a := a) (c := BitVec.allOnes 64) (n := law - 1) (v := true) (by omega)
    fun _ hb => by rw [BitVec.getLsbD_allOnes, decide_eq_true hb]
  simp only [canonical, Bool.or_eq_true, beq_iff_eq, hz, ho]
  refine ⟨?_, fun h => ?_⟩
  · rintro (h | h) b hb hlt <;> rw [h b hb hlt, h 63 (by omega) (by omega)]
  · cases hs : a.getLsbD 63 with
    | false => exact .inl fun b hb hlt => (h b hb hlt).trans hs
    | true => exact .inr fun b hb hlt => (h b hb hlt).trans hs

/-! ## What the forms read -/

/-- Settles O24: the two states agree in all that a register form reads, its source register among it. -/
theorem registerFormsReadVectorsOnly : Obligations.RegisterFormsReadVectorsOnly := by
  intro i s t s' m hsrc hx hvreg hpc hcr0 hcr4 hxcr0 hmode hsse41 havx havx2
  have hcore : SameCore s s' := ⟨hvreg, hpc, hcr0, hcr4, hxcr0, hmode, hsse41, havx, havx2⟩
  have hread' := readSource_reg (s := s') (n := (shapeOf i).nbytes) hsrc
  rw [State.readXmm, hcore.readV_eq, ← State.readXmm] at hread'
  exact hcore.exec_next hx (readSource_reg hsrc) hread' fun _ _ => rfl

/-- Settles O25: no check reads memory, and the source value has the operand's bytes. -/
theorem bytesBeyondTheOperandDoNotMatter : Obligations.BytesBeyondTheOperandDoNotMatter := by
  intro i s t o m hsrc hx hbytes
  obtain ⟨-, -, -, -, src, hread, -⟩ := exec_eq_next hx
  have hmem := hread
  rw [readSource_mem hsrc] at hmem
  obtain ⟨src', hread', hagree⟩ := memRead_of_same_bytes hmem (shapeOf_bytes i).2 hbytes
  have hcore : SameCore s { s with mem := m } := ⟨rfl, rfl, rfl, rfl, rfl, rfl, rfl, rfl, rfl⟩
  exact hcore.exec_next hx hread ((readSource_mem hsrc).trans hread') hagree

/-! ## The checks of the operand -/

/-- Settles O35: the three clauses are the three ways `operandFault` can combine `MemCheck` and the alignment check. -/
theorem memoryFaultsAreRaised : Obligations.MemoryFaultsAreRaised := by
  intro i s o hen hsrc hspace check misaligned
  refine ⟨fun f hf ha => ?check, fun hn hon hmis h16 => ?alignment, fun f hf _ _ => ?both⟩
  case check =>
    have hal := alignmentFaults_eq_false (ha.imp_right not_not.1)
    exact exec_operandFault hen hsrc hspace ((operandFault_of_aligned hal).trans hf)
  case alignment =>
    exact exec_operandFault hen hsrc hspace (operandFault_ac hn (alignmentFaults_misaligned hon hmis h16))
  case both =>
    exact (operandFault_or_ac hf).imp (exec_operandFault hen hsrc hspace) (exec_operandFault hen hsrc hspace)

/-- Settles O37: `MemCheck`'s two kinds of fault, and its canonical check, which no answer of the oracle undoes. -/
theorem memCheckReportsBySegment : Obligations.MemCheckReportsBySegment := by
  intro s a
  rw [← protectionFault_eq]
  refine ⟨fun f hf => ?kinds, fun hm j hj hnc => ?canonical⟩
  case kinds => exact (memCheck_eq_some hf).imp_right fun ⟨code, _, he⟩ => ⟨code, he⟩
  case canonical =>
    have hc : allCanonical s.cfg.law a.lin a.nbytes = false :=
      Bool.eq_false_iff.2 fun hall => by simp [allCanonical_iff.1 hall j hj] at hnc
    obtain ⟨f, hf⟩ := Option.isSome_iff_exists.1 (memCheck_isSome_of_not_canonical hm hc)
    rcases memCheck_eq_some hf with rfl | ⟨code, hv, rfl⟩
    · exact .inl hf
    · exact .inr ⟨code, hv, hf⟩

/-- Settles O39: the bounds of R50 come first in `memRead`. -/
theorem wrappingOperandIsRefused : Obligations.WrappingOperandIsRefused := by
  intro i s o hen hsrc hspace
  rw [← operandWraps_eq_false, Bool.not_eq_false] at hspace
  rw [exec_eq_memRead hen hsrc, memRead_wraps hspace, andThen_refused]

/-- Settles O40: device memory comes last in `memRead`, after every check has passed. -/
theorem deviceOperandIsRefused : Obligations.DeviceOperandIsRefused := by
  intro i s o hen hsrc hspace hcheck halign hdev
  have hf := operandFault_eq_none.2 ⟨hcheck, alignmentFaults_eq_false halign⟩
  rw [exec_eq_memRead hen hsrc, memRead_device (operandWraps_eq_false.2 hspace) hf hdev, andThen_refused]

/-! ## The step and the run -/

/-- Settles O45: the window begins with the instruction's bytes, from which the decoder reads it back. -/
theorem storedInstructionIsExecuted : Obligations.StoredInstructionIsExecuted := by
  intro s i hd hwf he htop hbytes
  obtain ⟨rest, hwindow⟩ := fetchFrom_bytes s (encode_length_le hwf) htop hbytes
  have hfetch : fetchInstr s = .next i := by
    rw [fetchInstr, fetchWindow, hwindow, decode_encode hwf]
  rw [step_eq_fetch hd (modeInSpec_iff.2 (Instr.mode_ne_other_of_wf hwf)) he, hfetch, andThen_next]

/-- Settles O50: a run ends final in a final state, and keeps what every step keeps. -/
theorem finalRunKeepsAllButVectorsAndPc : Obligations.FinalRunKeepsAllButVectorsAndPc := by
  intro fuel s t h
  obtain ⟨hfin, hsame⟩ := run_final_induction .refl .trans step_sameButVectorsAndPc h
  exact ⟨endPc_of_isFinal hfin, hsame⟩

end Sys2Proof.Machine

/-! SUPPORT. The encoder writes what the decoder has read (30_encoding.md R60 to R73, R83): each step of the procedure has
read the bytes of its layout, and how many bytes a well-formed instruction has. -/

namespace Sys2Proof

open Sys2Proof.Machine

/-! ## ModRM, SIB and displacement -/

/-- What is read as a SIB byte has the bytes that were read (R65). -/
theorem takeSib_eq_ok {follows : Bool} {bs rest : List Byte} {sib : Option Sib}
    (h : takeSib follows bs = .ok sib rest) : (sib.map Sib.byte).toList ++ rest = bs := by
  cases follows with
  | false =>
    injection h with hsib hrest
    subst hsib hrest
    rfl
  | true =>
    cases bs with
    | nil => simp [takeSib] at h
    | cons b bs =>
      injection h with hsib hrest
      subst hsib hrest
      simp [Sib.byte, byte_of_fields]

/-- What is read as an operand has the bytes that were read (R64 to R66). -/
theorem decodeRM_eq_ok {a16 : Bool} {bs rest : List Byte} {f : BitVec 3 × RM} (h : decodeRM a16 bs = .ok f rest) :
    f.2.bytes f.1 ++ rest = bs := by
  cases bs with
  | nil => simp [decodeRM] at h
  | cons m bs =>
    obtain ⟨sib, bs', hsib, h⟩ := Decoded.andThen_eq_ok h
    obtain ⟨disp, rest', hdisp, h⟩ := Decoded.andThen_eq_ok h
    injection h with hf hrest
    subst hf hrest
    obtain ⟨hdisp, -⟩ := takeDisp_eq_ok hdisp
    simp only [RM.bytes, byte_of_fields, List.cons_append, List.append_assoc, hdisp, takeSib_eq_ok hsib]

/-! ## The VEX bytes -/

/-- A byte with the low bits of `vex1` is made of them and of its three high bits (R71). -/
theorem vex1_of_fields : ∀ b : Byte, b.extractLsb' 0 5 = 2#5 →
    (BitVec.ofBool (b.getLsbD 7) ++ BitVec.ofBool (b.getLsbD 6) ++ BitVec.ofBool (b.getLsbD 5) ++ 2#5 : BitVec 8) = b := by
  decide

/-- A byte with the fixed bits of `vex2` is made of them and of `W` and `L` (R71). -/
theorem vex2_of_fields : ∀ b : Byte, b.extractLsb' 0 2 = 1#2 → b.extractLsb' 3 4 = 15#4 →
    (BitVec.ofBool (b.getLsbD 7) ++ 15#4 ++ BitVec.ofBool (b.getLsbD 2) ++ 1#2 : BitVec 8) = b := by
  decide

/-! ## The whole procedure -/

/-- A form that is read after its prefixes and REX byte is encoded as they are and the bytes that were read (R60). -/
theorem encode_decodeFormat {mode : Mode} {ps : List Pfx} {rex : Option Rex} {bs rest : List Byte} {i : Instr}
    (h : decodeFormat mode ps rex bs = .ok i rest) :
    encode i ++ rest = ps.map Pfx.byte ++ ((rex.map Rex.byte).toList ++ bs) := by
  rcases decodeFormat_eq_ok h with ⟨tail, rfl, h⟩ | ⟨tail, rfl, h⟩
  · obtain ⟨vex1, vex2, op, bs', rfl, -, h⟩ := decodeC4_eq_ok h
    obtain ⟨k, f, hk, hmmmmm, hpp, hvvvv, -, rfl, hrm, rfl⟩ := decodeVexBody_eq_ok h
    simp only [encode_vexInstr, VexEnc.bytes, VexEnc.vex1, VexEnc.vex2, Bool.not_not, vex1_of_fields vex1 hmmmmm,
      vex2_of_fields vex2 hpp hvvvv, opcode_of_pairOf hk, List.append_assoc, List.cons_append, decodeRM_eq_ok hrm,
      Option.map_none, Option.toList_none, List.nil_append]
  · obtain ⟨op, bs', rfl, h⟩ := decodeEscape_eq_ok h
    obtain ⟨k, f, hk, -, -, -, hrm, rfl⟩ := decodeLegacyBody_eq_ok h
    simp [LegacyEnc.bytes, opcode_of_pairOf hk, decodeRM_eq_ok hrm]

/-- Every instruction the decoder reads has the bytes that were read (R60 to R73, R83). -/
theorem encode_decode {mode : Mode} {bs rest : List Byte} {i : Instr} (h : decode mode bs = .ok i rest) :
    encode i ++ rest = bs := by
  obtain ⟨-, ps, tail, hscan, h⟩ := decode_eq_ok h
  obtain ⟨hbytes, -⟩ := scanPrefixes_eq_ok hscan
  rcases decodeAfterPrefixes_eq_ok h with ⟨b, bs', rfl, -, hrex, h⟩ | h
  · simpa [byte_rexOf b hrex, hbytes] using encode_decodeFormat h
  · simpa [hbytes] using encode_decodeFormat h

/-! ## Lengths -/

/-- ModRM is always there (R76). -/
theorem one_le_rmLength (o : RM) : 1 ≤ rmLength o := by
  unfold rmLength
  omega

/-- Harmless prefixes of distinct classes are at most a 66h, a 67h and a segment override (R62). -/
theorem length_le_three_of_harmless {ps : List Pfx} (hd : distinctClasses ps = true)
    (hharm : ps.all Pfx.harmless = true) : ps.length ≤ 3 := by
  have hsub : ps.map Pfx.classNum ⊆ [0, 1, 2] := by
    intro c hc
    obtain ⟨p, hp, rfl⟩ := List.mem_map.1 hc
    have := List.all_eq_true.1 hharm p hp
    cases p <;> simp_all [Pfx.harmless, Pfx.classNum]
  simpa using ((distinctClasses_iff_nodup.1 hd).subperm hsub).length_le

/-- Without 66h they are at most a 67h and a segment override. -/
theorem length_le_two_of_harmless {ps : List Pfx} (hd : distinctClasses ps = true)
    (hharm : ps.all Pfx.harmless = true) (hsize : ps.contains .opSize = false) : ps.length ≤ 2 := by
  have h66 : distinctClasses (.opSize :: ps) = true := by
    have hnone : ps.any Pfx.opSize.sameClass = false := by
      refine List.any_eq_false.2 fun p hp => ?_
      cases p <;> simp_all [Pfx.sameClass]
    simp [distinctClasses, hnone, hd]
  exact Nat.le_of_succ_le_succ (length_le_three_of_harmless h66 (by simpa [Pfx.harmless] using hharm))

/-- A well-formed legacy form has 5 to 13 bytes (R60, R76). -/
theorem LegacyEnc.length_bounds {mode : Mode} {e : LegacyEnc} (hwf : e.wf mode = true) :
    5 ≤ legacyLength e ∧ legacyLength e ≤ 13 := by
  obtain ⟨-, hd, hsize, hharm, -, -⟩ := LegacyEnc.wf_iff.1 hwf
  have hpfx := length_le_three_of_harmless hd hharm
  have hpos : 0 < e.pfx.length := List.length_pos_of_mem (List.contains_iff_mem.1 hsize)
  have hrm := rmLength_le e.rm
  have hrm' := one_le_rmLength e.rm
  unfold legacyLength
  split <;> omega

/-- A well-formed VEX form has 5 to 12 bytes (R60, R76). -/
theorem VexEnc.length_bounds {mode : Mode} {e : VexEnc} (hwf : e.wf mode = true) :
    5 ≤ vexLength e ∧ vexLength e ≤ 12 := by
  obtain ⟨-, hd, hsize, hharm, -, -⟩ := VexEnc.wf_iff.1 hwf
  have hpfx := length_le_two_of_harmless hd hharm hsize
  have hrm := rmLength_le e.rm
  have hrm' := one_le_rmLength e.rm
  unfold vexLength
  omega

end Sys2Proof

/-! SUPPORT. What the decoder refuses and what it answers with #UD (30_encoding.md R61 to R63, R73, R80, R83): after the
prefixes and REX byte the answer is that of the format, and each outcome of the formats has one equation. -/

namespace Sys2Proof

open Sys2Proof.Machine

/-! ## Prefixes and REX -/

/-- Among the prefixes, one of a class that was read before is refused (R62). -/
theorem scanPrefixes_repeated {ps seen : List Pfx} {p : Pfx} (hd : distinctClasses ps = true)
    (hs : ∀ q ∈ ps, seen.any q.sameClass = false) (hp : ∃ q ∈ ps ++ seen, q.sameClass p = true) (rest : List Byte) :
    scanPrefixes (ps.map Pfx.byte ++ p.byte :: rest) seen = .refused .repeatedPrefixClass := by
  induction ps generalizing seen with
  | nil =>
    have hany : seen.any p.sameClass = true := by
      obtain ⟨q, hq, hqp⟩ := hp
      exact List.any_eq_true.2 ⟨q, hq, by rwa [Pfx.sameClass_comm]⟩
    simp [scanPrefixes, hany]
  | cons q ps ih =>
    obtain ⟨hq, hps⟩ : ps.any q.sameClass = false ∧ distinctClasses ps = true := by
      simpa [distinctClasses] using hd
    have hseen : ∀ r ∈ ps, (q :: seen).any r.sameClass = false := by
      intro r hr
      have hqr := List.any_eq_false.1 hq r hr
      rw [Pfx.sameClass_comm] at hqr
      rw [List.any_cons, hs r (by simp [hr]), Bool.or_false]
      simpa using hqr
    have hmem : ∃ r ∈ ps ++ q :: seen, r.sameClass p = true := by
      obtain ⟨r, hr, hrp⟩ := hp
      exact ⟨r, by simp only [List.mem_append, List.mem_cons, List.cons_append] at hr ⊢; tauto, hrp⟩
    simp only [List.map_cons, List.cons_append, scanPrefixes, prefixOf_byte, hs q (by simp), Bool.false_eq_true,
      if_false, ih hps hseen hmem, Decoded.andThen]

/-- In `M64` a REX byte after the prefixes is read, whatever follows it (R63, R83 step 2). -/
theorem decode_rex {ps : List Pfx} (hd : distinctClasses ps = true) (r : Rex) (rest : List Byte) :
    decode .m64 (ps.map Pfx.byte ++ r.byte :: rest) = decodeFormat .m64 ps (some r) rest := by
  obtain ⟨hisRex, hbits⟩ := rexOf_byte r
  simp [decode, scanPrefixes_bytes ps [] r.byte rest hd (by simp) (rex_byte_ne r), decodeAfterPrefixes, hisRex, hbits]

/-- A byte after the prefixes that is none, and in `M64` no REX byte, selects the format (R83 steps 1 to 3). -/
theorem decode_noRex {mode : Mode} {ps : List Pfx} {b : Byte} (hm : mode ≠ .other) (hd : distinctClasses ps = true)
    (hb : prefixOf b = none) (hbrex : mode = .m64 → isRex b = false) (rest : List Byte) :
    decode mode (ps.map Pfx.byte ++ b :: rest) = decodeFormat mode ps none (b :: rest) := by
  have hno : (mode == .m64 && isRex b) = false := by
    simpa using hbrex
  simp only [decode_eq hm, scanPrefixes_bytes ps [] b rest hd (by simp) hb, Decoded.andThen_ok, decodeAfterPrefixes, hno,
    Bool.false_eq_true, if_false]

/-- The two cases as one: prefixes, a REX byte in `M64` alone, and the byte that selects the format, which in `M32` may also
be one of 40h to 4Fh. -/
theorem decode_selects {mode : Mode} {ps : List Pfx} {rex : Option Rex} {b : Byte} (hm : mode ≠ .other)
    (hd : distinctClasses ps = true) (hrex : mode = .m32 → rex = none) (hb : prefixOf b = none)
    (hbrex : mode = .m64 → isRex b = false) (rest : List Byte) :
    decode mode (ps.map Pfx.byte ++ ((rex.map Rex.byte).toList ++ b :: rest)) =
      decodeFormat mode ps rex (b :: rest) := by
  cases rex with
  | none => exact decode_noRex hm hd hb hbrex rest
  | some r =>
    obtain rfl : mode = .m64 := by cases mode <;> simp_all
    exact decode_rex hd r (b :: rest)

/-! ## The format after the prefixes and REX byte -/

section Selected

variable {mode : Mode} {ps : List Pfx} {rex : Option Rex} (hm : mode ≠ .other) (hd : distinctClasses ps = true)
  (hrex : mode = .m32 → rex = none)

include hm hd hrex

/-- An escape other than 0F 38 is another instruction (R80). -/
theorem decode_escape_refused {b : Byte} (hb : b ≠ 0x38) (rest : List Byte) :
    decode mode (ps.map Pfx.byte ++ ((rex.map Rex.byte).toList ++ (0x0F :: b :: rest))) = .refused .notInFamily := by
  rw [decode_selects hm hd hrex (by decide) (fun _ => by decide)]
  exact if_pos (bne_iff_ne.2 hb)

/-- After 0F 38 the opcode byte decides. -/
theorem decode_legacy (op : Byte) (rest : List Byte) :
    decode mode (ps.map Pfx.byte ++ ((rex.map Rex.byte).toList ++ (0x0F :: 0x38 :: op :: rest))) =
      decodeLegacyBody mode ps rex op rest :=
  decode_selects hm hd hrex (by decide) (fun _ => by decide) _

/-- After C4h, where it is not LES (R73), `vex1`, `vex2` and the opcode byte decide. -/
theorem decode_vex {vex1 : Byte} (hles : mode = .m32 → vex1.extractLsb' 6 2 = 3#2) (vex2 op : Byte)
    (rest : List Byte) :
    decode mode (ps.map Pfx.byte ++ ((rex.map Rex.byte).toList ++ (0xC4 :: vex1 :: vex2 :: op :: rest))) =
      decodeVexBody mode ps rex vex1 vex2 op rest := by
  have hno : ¬(mode != .m64 && vex1.extractLsb' 6 2 != 3#2) = true := by
    cases mode <;> simp_all
  rw [decode_selects hm hd hrex (by decide) (fun _ => by decide)]
  exact if_neg hno

end Selected

/-- An opcode byte outside 20h to 25h is no row (R77). -/
theorem pairOf_eq_none : ∀ op : Byte, op.toNat < 0x20 ∨ 0x25 < op.toNat → pairOf op = none := by
  decide

theorem any_isRepeat_iff {ps : List Pfx} : ps.any Pfx.isRepeat = true ↔ Pfx.rep ∈ ps ∨ Pfx.repne ∈ ps := by
  induction ps with
  | nil => simp
  | cons p ps ih =>
    rw [List.any_cons, Bool.or_eq_true, ih]
    cases p <;> simp [Pfx.isRepeat]

theorem any_isRepeat_eq_false {ps : List Pfx} : ps.any Pfx.isRepeat = false ↔ Pfx.rep ∉ ps ∧ Pfx.repne ∉ ps := by
  rw [← Bool.not_eq_true, any_isRepeat_iff, not_or]

theorem any_forbidsVex_iff {ps : List Pfx} :
    ps.any Pfx.forbidsVex = true ↔ Pfx.opSize ∈ ps ∨ Pfx.lock ∈ ps ∨ Pfx.rep ∈ ps ∨ Pfx.repne ∈ ps := by
  induction ps with
  | nil => simp
  | cons p ps ih =>
    rw [List.any_cons, Bool.or_eq_true, ih]
    cases p <;> simp [Pfx.forbidsVex]

/-- A byte other than C4h and 0Fh starts no format (R80). -/
theorem decodeFormat_refused {mode : Mode} {ps : List Pfx} {rex : Option Rex} {b : Byte} (hvex : b ≠ 0xC4)
    (hesc : b ≠ 0x0F) (rest : List Byte) : decodeFormat mode ps rex (b :: rest) = .refused .notInFamily := by
  rw [decodeFormat, if_neg (mt beq_iff_eq.1 hvex), if_neg (mt beq_iff_eq.1 hesc)]

/-! ## What the formats answer -/

section Body

variable {mode : Mode} {ps : List Pfx} {rex : Option Rex} {op : Byte} {rest : List Byte}

/-- An opcode outside the family, in the legacy format (R80). -/
theorem decodeLegacyBody_notInFamily (h : pairOf op = none) :
    decodeLegacyBody mode ps rex op rest = .refused .notInFamily := by
  simp [decodeLegacyBody, h]

/-- F2 or F3 before a legacy form (R62). -/
theorem decodeLegacyBody_repeat (k : Pair) (h : Pfx.rep ∈ ps ∨ Pfx.repne ∈ ps) :
    decodeLegacyBody mode ps rex k.opcode rest = .refused .repeatWithLegacyForm := by
  simp [decodeLegacyBody, any_isRepeat_iff.2 h]

/-- A legacy form without 66h (R61). -/
theorem decodeLegacyBody_noOperandSize (k : Pair) (hrep : Pfx.rep ∉ ps) (hrepne : Pfx.repne ∉ ps)
    (hsize : Pfx.opSize ∉ ps) : decodeLegacyBody mode ps rex k.opcode rest = .refused .noOperandSizePrefix := by
  simp [decodeLegacyBody, any_isRepeat_eq_false.2 ⟨hrep, hrepne⟩, hsize]

/-- LOCK before a legacy form (60_exceptions.md R125). -/
theorem decodeLegacyBody_lock (k : Pair) (hrep : Pfx.rep ∉ ps) (hrepne : Pfx.repne ∉ ps) (hsize : Pfx.opSize ∈ ps)
    (hlock : Pfx.lock ∈ ps) : decodeLegacyBody mode ps rex k.opcode rest = .undefinedOpcode := by
  simp [decodeLegacyBody, any_isRepeat_eq_false.2 ⟨hrep, hrepne⟩, hsize, hlock]

/-- Another map, another `pp` or an opcode outside the family, in the VEX format (R80). -/
theorem decodeVexBody_notInFamily {vex1 vex2 : Byte}
    (h : vex1.extractLsb' 0 5 ≠ 2#5 ∨ vex2.extractLsb' 0 2 ≠ 1#2 ∨ pairOf op = none) :
    decodeVexBody mode ps rex vex1 vex2 op rest = .refused .notInFamily := by
  unfold decodeVexBody
  split
  · rfl
  · rename_i hmap
    have hnone : pairOf op = none := by
      simp only [Bool.or_eq_true, bne_iff_ne, not_or] at hmap
      tauto
    simp [hnone]

/-- One of 66, F0, F2, F3 or a REX byte before a VEX form (60_exceptions.md R125). -/
theorem decodeVexBody_forbidden (l : Bool) (k : Pair) (e : VexEnc)
    (h : rex.isSome = true ∨ Pfx.opSize ∈ ps ∨ Pfx.lock ∈ ps ∨ Pfx.rep ∈ ps ∨ Pfx.repne ∈ ps) :
    decodeVexBody mode ps rex e.vex1 (e.vex2 l) k.opcode rest = .undefinedOpcode := by
  obtain ⟨hmmmmm, -⟩ := vex1_fields e
  obtain ⟨hpp, -⟩ := vex2_fields l e
  have hforbid : (ps.any Pfx.forbidsVex || rex.isSome) = true := by
    rw [Bool.or_eq_true, any_forbidsVex_iff]
    exact h.symm
  simp only [decodeVexBody, hmmmmm, hpp, bne_self_eq_false, Bool.or_self, Bool.false_eq_true, if_false, pairOf_opcode,
    hforbid, if_true]

end Body

end Sys2Proof

/-! SUPPORT. The segment of a memory operand (30_encoding.md R70): what the prefixes override, and what the base alone gives. -/

namespace Sys2Proof.Machine

open Sys2Proof

@[simp] theorem prefixesOf_legacyInstr (k : Pair) (e : LegacyEnc) : prefixesOf (legacyInstr k e) = e.pfx := by
  cases k <;> rfl

@[simp] theorem prefixesOf_vexInstr (l : Bool) (k : Pair) (e : VexEnc) : prefixesOf (vexInstr l k e) = e.pfx := by
  cases l <;> cases k <;> rfl

/-- A well-formed instruction has prefixes of distinct classes (R62). -/
theorem distinctClasses_prefixesOf {mode : Mode} {i : Instr} (hwf : i.wf mode = true) :
    distinctClasses (prefixesOf i) = true := by
  cases i using instr_byRow with
  | legacy k e =>
    rw [wf_legacyInstr] at hwf
    obtain ⟨-, hd, -⟩ := LegacyEnc.wf_iff.1 hwf
    rwa [prefixesOf_legacyInstr]
  | vex l k e =>
    rw [wf_vexInstr] at hwf
    obtain ⟨-, hd, -⟩ := VexEnc.wf_iff.1 hwf
    rwa [prefixesOf_vexInstr]

/-- Operand 2 of every instruction is read from its prefixes, two extension bits and its ModRM (R64, R75). -/
theorem instrForm_src (mode : Mode) (i : Instr) :
    ∃ x b o, (instrForm mode i).src = srcOf mode (prefixesOf i) x b o := by
  cases i using instr_byRow with
  | legacy k e => exact ⟨_, _, e.rm, by rw [instrForm_legacyInstr, prefixesOf_legacyInstr]; rfl⟩
  | vex l k e => exact ⟨_, _, e.rm, by rw [instrForm_vexInstr, prefixesOf_vexInstr]; rfl⟩

/-- The segment of a memory operand is that of its base and of the override, at every address size (R70). -/
theorem memOp_seg (mode : Mode) (ps : List Pfx) (x b : Bool) (o : RM) :
    (memOp mode ps x b o).seg = operandSeg mode (segOverride ps) (memOp mode ps x b o).base := by
  unfold memOp
  dsimp only
  split <;> rfl

/-- Among prefixes of distinct classes a segment's is the override (R62). -/
theorem segOverride_of_mem {ps : List Pfx} {g : Seg} (hd : distinctClasses ps = true) (hg : Pfx.seg g ∈ ps) :
    segOverride ps = some g := by
  induction ps with
  | nil => simp at hg
  | cons p ps ih =>
    obtain ⟨hp, hps⟩ : ps.any p.sameClass = false ∧ distinctClasses ps = true := by simpa [distinctClasses] using hd
    rcases List.mem_cons.1 hg with rfl | htail
    · rfl
    · have hne := List.any_eq_false.1 hp _ htail
      cases p with
      | seg q => simp [Pfx.sameClass] at hne
      | _ => exact ih hps htail

/-- An override is one of the prefixes (R62). -/
theorem mem_of_segOverride {ps : List Pfx} {g : Seg} (h : segOverride ps = some g) : Pfx.seg g ∈ ps := by
  induction ps with
  | nil => simp [segOverride] at h
  | cons p ps ih =>
    cases p <;> simp_all [segOverride]

theorem defaultSeg_eq (base : Option GReg) :
    defaultSeg base = if base = some 4 ∨ base = some 5 then .ss else .ds := by
  cases base <;> simp [defaultSeg]

/-- An override counts in `M32`, and in `M64` where it is FS or GS (R70). -/
theorem operandSeg_some {mode : Mode} (hm : mode ≠ .other) (g : Seg) (base : Option GReg) :
    operandSeg mode (some g) base = if mode = .m32 ∨ g = .fs ∨ g = .gs then g else defaultSeg base := by
  cases mode with
  | m64 => cases g <;> rfl
  | m32 => simp [operandSeg]
  | other => exact absurd rfl hm

theorem operandSeg_none (mode : Mode) (base : Option GReg) : operandSeg mode none base = defaultSeg base := by
  cases mode <;> rfl

/-- The segment of an instruction's memory operand is that of its base and of its prefixes' override (R70). -/
theorem instrForm_mem_seg {mode : Mode} {i : Instr} {o : MemOp} (h : (instrForm mode i).src = .mem o) :
    o.seg = operandSeg mode (segOverride (prefixesOf i)) o.base := by
  obtain ⟨x, b, rm, hsrc⟩ := instrForm_src mode i
  rw [hsrc, srcOf] at h
  split at h
  · simp at h
  · injection h with h
    exact h ▸ memOp_seg mode (prefixesOf i) x b rm

end Sys2Proof.Machine

/-! SUPPORT. The launch of a table word (70_reset_and_hazards.md R150, R152, log 5): the stored bytes stand in memory, and
every byte at a canonical address may be fetched. -/

namespace Sys2Proof.Machine

open Sys2Proof

/-- Storing bytes leaves the addresses below them. -/
theorem read_storeBytes_below {mode : Mode} {bs : List Byte} {m : Memory} {a : Word} {x : Nat} (hx : x < a.toNat)
    (ha : a.toNat + bs.length < 2 ^ linearBits mode) :
    Memory.read (storeBytes mode m a bs) x = Memory.read m x := by
  induction bs generalizing m a with
  | nil => rfl
  | cons b bs ih =>
    rw [List.length_cons] at ha
    have hnext : (nextPc mode a 1).toNat = a.toNat + 1 := nextPc_toNat (pcWraps_eq_false.2 (by omega))
    rw [storeBytes, ih (by omega) (by omega), Memory.read_write_other _ _ _ _ (by omega)]

/-- Bytes stored below the top of the space are read back. -/
theorem read_storeBytes {mode : Mode} {bs : List Byte} {m : Memory} {a : Word} {j : Nat} {b : Byte}
    (hm : Memory.wf m = true) (ha : a.toNat + bs.length < 2 ^ linearBits mode) (hj : bs[j]? = some b) :
    Memory.read (storeBytes mode m a bs) (a.toNat + j) = b := by
  induction bs generalizing m a j with
  | nil => simp at hj
  | cons c bs ih =>
    rw [List.length_cons] at ha
    have hnext : (nextPc mode a 1).toNat = a.toNat + 1 := nextPc_toNat (pcWraps_eq_false.2 (by omega))
    rw [storeBytes]
    cases j with
    | zero =>
      obtain rfl : c = b := by simpa using hj
      rw [read_storeBytes_below (by omega) (by omega)]
      exact Memory.read_write_same m 0 a.toNat c hm
    | succ j =>
      have htail := ih (Memory.write_wf m a.toNat c hm a.isLt) (a := nextPc mode a 1) (by omega)
        (by simpa using hj)
      rwa [hnext, Nat.add_assoc, Nat.add_comm 1 j] at htail

/-- An address below the middle of the lower half is canonical (20_memory.md R51). -/
theorem canonical_of_lt {law : Nat} {a : Word} (h1 : 1 ≤ law) (h64 : law ≤ 64) (ha : a.toNat < 2 ^ (law - 1)) :
    canonical law a = true := by
  have hzero : ∀ b, law - 1 ≤ b → a.getLsbD b = false := fun b hb =>
    Nat.testBit_lt_two_pow (ha.trans_le (Nat.pow_le_pow_right (by omega) hb))
  refine (canonicalMeansEqualHighBits law a h1 h64).2 fun b hb _ => ?_
  rw [hzero b hb, hzero 63 (by omega)]

/-- After a launch the oracle admits every fetch in the space: the first rule names no segment and no privilege level, and its
range is the whole space (log 5). -/
theorem oracleVerdict_launch (c : Config) {a : Access} (hk : a.kind = .fetch) (ha : a.lin.toNat + a.nbytes ≤ 2 ^ 64) :
    oracleVerdict (launchConfig c).memCheck a = .ok := by
  have happlies : ruleApplies fetchAnywhere a = true := by
    rw [ruleApplies, hk]
    exact decide_eq_true ha
  have hfind : (launchConfig c).memCheck.rules.find? (fun r => ruleApplies r a) = some fetchAnywhere :=
    List.find?_cons_of_pos happlies
  rw [oracleVerdict, hfind]
  rfl

/-- After a launch every byte at a canonical address may be fetched. -/
theorem fetchFault_launched {s t : State} {a : Word} (hcfg : t.cfg = launchConfig s.cfg)
    (hc : canonical s.cfg.law a = true) : fetchFault t a = none := by
  have hv := oracleVerdict_launch s.cfg (a := ⟨.fetch, .cs, a, a, 1, t.cpl⟩) rfl a.isLt
  have hall : allCanonical (launchConfig s.cfg).law a 1 = true := by
    simpa [allCanonical, launchConfig] using hc
  simp [fetchFault, memCheck, hcfg, hv, hall]

theorem lowBytes_length (n w : Nat) : (lowBytes n w).length = n := by
  induction n generalizing w with
  | zero => rfl
  | succ n ih => rw [lowBytes, List.length_cons, ih]

/-- The word of the launch stands at `pc`. -/
theorem read_withFetchWord {s : State} {nbits w j : Nat} {b : Byte} (hm : Memory.wf s.mem = true)
    (hpc : s.pc.toNat + 15 < 2 ^ linearBits (launchConfig s.cfg).mode) (hj : (tableBytes nbits w)[j]? = some b) :
    Memory.read (s.withFetchWord nbits w).mem (s.pc.toNat + j) = b :=
  read_storeBytes hm (by rwa [tableBytes, lowBytes_length]) hj

/-- A launch whose word the decoder reads in the mode of the launch executes it: the instruction's bytes are the first of the
word (R83), each stands in memory and may be fetched. -/
theorem step_withFetchWord {s : State} {nbits w : Nat} {i : Instr} {rest : List Byte} (hm : Memory.wf s.mem = true)
    (hpc : s.pc.toNat + 15 < 2 ^ linearBits (launchConfig s.cfg).mode)
    (hc : ∀ j, j < 15 → canonical s.cfg.law (s.pc + BitVec.ofNat 64 j) = true)
    (hdec : decode (launchConfig s.cfg).mode (tableBytes nbits w) = .ok i rest) :
    step (s.withFetchWord nbits w) = exec i (s.withFetchWord nbits w) := by
  have hbytes : encode i ++ rest = tableBytes nbits w := encode_decode hdec
  have hlen : (encode i).length ≤ 15 := encode_length_le (decode_wf hdec)
  have htop : s.pc.toNat + (encode i).length ≤ 2 ^ linearBits (launchConfig s.cfg).mode := by omega
  refine storedInstructionIsExecuted _ i rfl (decode_wf hdec) nofun htop fun j b hj => ?_
  obtain ⟨hlt, -⟩ := List.getElem?_eq_some_iff.1 hj
  refine ⟨fetchFault_launched rfl (hc j (by omega)), read_withFetchWord hm hpc ?_⟩
  rw [← hbytes]
  exact (List.getElem?_append_left hlt).trans hj

end Sys2Proof.Machine

/-! SUPPORT. What `exec` reads of an instruction: its row and its form in the mode of the state, and nothing else of its
encoding. -/

namespace Sys2Proof.Machine

open Sys2Proof

/-- Two instructions of one row with the same form do the same. -/
theorem exec_congr {i j : Instr} {s : State} (hg : groupOf i = groupOf j) (hshape : shapeOf i = shapeOf j)
    (hform : formIn s i = formIn s j) : exec i s = exec j s := by
  have hresult : formResult i s = formResult j s := by
    funext src
    simp only [formResult, hg, hshape, hform]
  rw [exec_eq_runForm, exec_eq_runForm, hg, hshape, hform, hresult]

@[simp] theorem groupOf_legacyInstr (k : Pair) (e : LegacyEnc) : groupOf (legacyInstr k e) = .legacy := by
  cases k <;> rfl

@[simp] theorem groupOf_vexInstr (l : Bool) (k : Pair) (e : VexEnc) :
    groupOf (vexInstr l k e) = if l then .vex256 else .vex128 := by
  cases l <;> cases k <;> rfl

/-- The elements of a legacy row are the pair's, whatever the encoding. -/
theorem shapeOf_legacyInstr (k : Pair) (e e' : LegacyEnc) :
    shapeOf (legacyInstr k e) = shapeOf (legacyInstr k e') := by
  cases k <;> rfl

/-- The elements of a VEX row are the pair's and `L`'s, whatever the rest of the encoding. -/
theorem shapeOf_vexInstr (l : Bool) (k : Pair) (e e' : VexEnc) :
    shapeOf (vexInstr l k e) = shapeOf (vexInstr l k e') := by
  cases l <;> cases k <;> rfl

/-- What the decoder reads is what the fetch answers. -/
theorem fetchInstr_next {s : State} {i : Instr} {rest : List Byte}
    (h : decode s.cfg.mode (fetchWindow s).1 = .ok i rest) : fetchInstr s = .next i := by
  simp [fetchInstr, h]

end Sys2Proof.Machine

/-! CERTIFICATES. The obligations on encodings (30_encoding.md): the decoder and the encoder are inverse to each other, how
long an instruction is, what is #UD and what is refused, the operand's segment, `W`, and the step at bytes that decode. -/

namespace Sys2Proof.Machine

open Sys2Proof

/-! ## The decoder and the encoder -/

/-- Settles O1: the decoder's steps read each layout of the encoder back. -/
theorem decodeOfEncodeIsTheInstruction : Obligations.DecodeOfEncodeIsTheInstruction :=
  fun _ _ rest hwf => decode_encode hwf rest

/-- Settles O2: each step of the decoder has read the bytes that the encoder writes for it, under the conditions of R60 to R73. -/
theorem encodeOfDecodeIsTheBytes : Obligations.EncodeOfDecodeIsTheBytes :=
  fun _ _ _ _ h => ⟨decode_wf h, encode_decode h⟩

/-- Settles O3: the length is that of the encoding, which is well-formed. -/
theorem decodedLengthIsBounded : Obligations.DecodedLengthIsBounded := by
  intro mode bs i rest h
  have hlen : bs.length = (instrForm mode i).len + rest.length := by
    rw [← encode_decode h, List.length_append, encode_length mode i]
  have hwf := decode_wf h
  refine ⟨hlen, ?_⟩
  cases i using instr_byRow with
  | legacy k e =>
    rw [wf_legacyInstr] at hwf
    rw [instrForm_legacyInstr, groupOf_legacyInstr, if_pos rfl]
    exact LegacyEnc.length_bounds hwf
  | vex l k e =>
    rw [wf_vexInstr] at hwf
    rw [instrForm_vexInstr, groupOf_vexInstr, if_neg (by cases l <;> decide)]
    exact VexEnc.length_bounds hwf

/-- Settles O4: the decoder runs out of fewer than 15 bytes only. -/
theorem fifteenBytesDecideTheDecoder : Obligations.FifteenBytesDecideTheDecoder :=
  fun _ _ hlen h => (decode_truncated h).not_ge hlen

theorem decode_of_encode_eq {mode : Mode} {i : Instr} {bs : List Byte} (hwf : i.wf mode = true)
    (h : encode i = bs) : decode mode bs = .ok i [] := by
  rw [← h, ← List.append_nil (encode i), decode_encode hwf]

/-- Settles O10: each word is the encoding of a well-formed instruction, which is read back from it. -/
theorem writtenOutWordsDecode : Obligations.WrittenOutWordsDecode := by
  refine ⟨decode_of_encode_eq ?_ ?_, decode_of_encode_eq ?_ ?_, decode_of_encode_eq ?_ ?_, decode_of_encode_eq ?_ ?_,
    decode_of_encode_eq ?_ ?_⟩
  all_goals decide

/-! ## What is no form -/

/-- Settles O6: LOCK comes after the checks of F2, F3 and 66 in the legacy format, and the VEX format forbids all of them. -/
theorem forbiddenPrefixesAreUndefined : Obligations.ForbiddenPrefixesAreUndefined := by
  intro mode ps k rest hm hd
  refine ⟨fun rex hrex hsize hlock hrep hrepne => ?legacy, fun rex l e hext hforbid => ?vex⟩
  case legacy => rw [decode_legacy hm hd hrex, decodeLegacyBody_lock k hrep hrepne hsize hlock]
  case vex =>
    have hles : mode = .m32 → e.vex1.extractLsb' 6 2 = 3#2 := fun h32 => by
      obtain ⟨-, hr, hx⟩ := hext h32
      obtain ⟨-, -, -, -, hhigh⟩ := vex1_fields e
      rw [hhigh, hr, hx]
      rfl
    rw [decode_vex hm hd (fun h32 => (hext h32).1) hles, decodeVexBody_forbidden l k e hforbid]

/-- Settles O7: the scan of the prefixes answers the first clause, the legacy format the next two, and the byte that selects
the format the last. -/
theorem sequencesOutsideTheGrammarAreRefused : Obligations.SequencesOutsideTheGrammarAreRefused := by
  intro mode ps rest hm hd
  refine ⟨fun p q hq hqp => ?repeated, fun rex k hrex hrep => ?f2f3, fun rex k hrex hrep hrepne hsize => ?noSize,
    fun rex b h64 hesc hvex => ?misplaced⟩
  case repeated =>
    rw [decode_eq hm, scanPrefixes_repeated hd (by simp) ⟨q, by simpa using hq, hqp⟩]
    rfl
  case f2f3 => rw [decode_legacy hm hd hrex, decodeLegacyBody_repeat k hrep]
  case noSize => rw [decode_legacy hm hd hrex, decodeLegacyBody_noOperandSize k hrep hrepne hsize]
  case misplaced =>
    subst h64
    rw [decode_rex hd, decodeFormat_refused hvex hesc]

/-- Settles O8: the byte that selects the format, the escape, and the opcode in either format. -/
theorem neighboursOfTheFamilyAreRefused : Obligations.NeighboursOfTheFamilyAreRefused := by
  intro mode ps rex rest hm hd hrex
  refine ⟨fun b hesc hvex hb hbrex => ?format, fun b hb => ?escape, fun op hop => ?opcode,
    fun vex1 vex2 op hles h => ?vex⟩
  case format => rw [decode_selects hm hd hrex hb hbrex, decodeFormat_refused hvex hesc]
  case escape => exact decode_escape_refused hm hd hrex hb rest
  case opcode => rw [decode_legacy hm hd hrex, decodeLegacyBody_notInFamily (pairOf_eq_none op hop)]
  case vex =>
    rw [decode_vex hm hd hrex hles, decodeVexBody_notInFamily (h.imp_right (Or.imp_right (pairOf_eq_none op)))]

/-- Settles O9: in `M32` the byte after C4h decides first. -/
theorem lesIsRefusedInM32 : Obligations.LesIsRefusedInM32 := by
  intro ps b rest hd hb
  rw [decode_noRex (by decide) hd (by decide) (fun _ => by decide)]
  exact if_pos (bne_iff_ne.2 hb)

/-! ## What the fields mean -/

/-- Settles O15: prefixes of distinct classes hold one override or none. -/
theorem operandSegmentFollowsBaseAndOverride : Obligations.OperandSegmentFollowsBaseAndOverride := by
  intro mode i o hwf hsrc dflt
  have hd := distinctClasses_prefixesOf hwf
  rw [instrForm_mem_seg hsrc, ← show defaultSeg o.base = dflt from defaultSeg_eq o.base]
  refine ⟨fun g hg => ?override, fun hnone => ?none⟩
  case override => rw [segOverride_of_mem hd hg, operandSeg_some (Instr.mode_ne_other_of_wf hwf)]
  case none =>
    have hno : segOverride (prefixesOf i) = none :=
      Option.eq_none_iff_forall_ne_some.2 fun g hg => hnone g (mem_of_segOverride hg)
    rw [hno, operandSeg_none]

/-- Settles O11: no form reads `W`. -/
theorem widthBitIsIgnored : Obligations.WidthBitIsIgnored := by
  refine ⟨fun k e r w s => ?rex, fun l k e w s => ?vex⟩
  case rex =>
    have hform : ∀ mode, legacyForm mode { e with rex := some { r with w := w } } =
        legacyForm mode { e with rex := some r } := fun _ => rfl
    exact exec_congr (by simp) (shapeOf_legacyInstr k _ _) (by simp [hform])
  case vex =>
    have hform : ∀ mode, vexForm mode { e with w := w } = vexForm mode e := fun _ => rfl
    exact exec_congr (by simp) (shapeOf_vexInstr l k _ _) (by simp [hform])

/-! ## The step -/

/-- Settles O42: the step executes what the fetch answers. -/
theorem stepRunsTheDecodedInstruction : Obligations.StepRunsTheDecodedInstruction := by
  intro s i rest hd hm he h
  rw [step_eq_fetch hd hm he, fetchInstr_next h, andThen_next]

/-- Settles O52: reset's memory is empty, and the 15 addresses from its `pc` are low and so canonical. -/
theorem launchedWordIsExecuted : Obligations.LaunchedWordIsExecuted := by
  intro nbits w i h
  have hcanonical : ∀ j, j < 15 → canonical State.reset.cfg.law (State.reset.pc + BitVec.ofNat 64 j) = true := by
    decide
  unfold decodeTableWord at h
  split at h
  · rename_i j rest hdec
    obtain rfl : j = i := by simpa using h
    exact step_withFetchWord reset_mem_wf (by decide) hcanonical hdec
  · simp at h

end Sys2Proof.Machine

/-! SUPPORT. The order of the enabling checks (60_exceptions.md R131) as facts about any instruction: #UD first, #NM next, and
past them what a register-source form can still answer. -/

namespace Sys2Proof.Machine

open Sys2Proof

/-- A failed check raises its exception before the mode or the source is looked at (R131). -/
theorem runForm_checkFails {u : Bool} {f : Form} {n : Nat} {r : Xmm → Vec} {s : State} {e : Fault}
    (h : checkEnabled u s = some e) : runForm u f n r s = .fault e := by
  simp [runForm, h, raise]

section

variable {i : Instr} {s : State}

/-- A #UD condition of the group comes before every other check (R125, R131). -/
theorem exec_undefined (hu : UndefinedCondition (groupOf i) s) : exec i s = .fault .ud := by
  rw [exec_eq_runForm, groupUndefined_iff.2 hu, runForm_checkFails (checkEnabled_ud s)]

/-- CR0.TS = 1 comes next, before the mode and the source (R126, R131). -/
theorem exec_notAvailable (hu : ¬ UndefinedCondition (groupOf i) s) (ht : s.cr0Ts = true) : exec i s = .fault .nm := by
  rw [exec_eq_runForm, groupUndefined_eq_false.2 hu, runForm_checkFails (checkEnabled_nm ht)]

/-- All that a register-source form can answer, check by check: its source always has a value (R130). -/
theorem exec_reg_cases {m : VReg} (hsrc : (formIn s i).src = .reg m) :
    exec i s = .fault .ud ∨ exec i s = .fault .nm ∨
      (s.cfg.mode = .other ∧ exec i s = .refused .modeOutsideSpec) ∨
      (¬ NextPcInSpace s (formIn s i).len ∧ exec i s = .refused .pcWraps) ∨ ∃ t, exec i s = .next t := by
  by_cases hu : UndefinedCondition (groupOf i) s
  · exact .inl (exec_undefined hu)
  cases ht : s.cr0Ts with
  | true => exact .inr (.inl (exec_notAvailable hu ht))
  | false =>
    by_cases hm : s.cfg.mode = .other
    · exact .inr (.inr (.inl ⟨hm, exec_mode_other hm hu ht⟩))
    have hx := exec_eq_finish hu ht hm (readSource_reg hsrc)
    cases hw : pcWraps s.cfg.mode s.pc (formIn s i).len with
    | true =>
      have hpc : ¬ NextPcInSpace s (formIn s i).len := fun hpc => by simp [pcWraps_eq_false.2 hpc] at hw
      exact .inr (.inr (.inr (.inl ⟨hpc, hx.trans (finish_refused _ hw)⟩)))
    | false => exact .inr (.inr (.inr (.inr ⟨_, hx.trans (finish_next _ hw)⟩)))

/-- An enabled memory-source form completes where its operand lies in the space, raises nothing and is ordinary memory: what
decides is whether the checks raise, not why they do not. -/
theorem exec_mem_completes {o : MemOp} {S : Xmm} (hen : Enabled (groupOf i) s) (hsrc : (formIn s i).src = .mem o)
    (hspace : OperandInSpace s o (formIn s i).len (shapeOf i).nbytes)
    (hf : operandFault s (operandAccess s o (formIn s i).len (shapeOf i).nbytes) = none)
    (hd : inDevice s.cfg.devices (operandAddr s o (formIn s i).len) (shapeOf i).nbytes = false)
    (hS : ∀ j, j < (shapeOf i).nbytes →
      S.extractLsb' (8 * j) 8 = Memory.read s.mem ((operandAddr s o (formIn s i).len).toNat + j))
    (hpc : NextPcInSpace s (formIn s i).len) : ∃ t, CompletesIn i s t S := by
  obtain ⟨hu, ht, hm⟩ := hen.checks
  have hread := (readSource_mem hsrc).trans (memRead_next (operandWraps_eq_false.2 hspace) hf hd)
  have hagree : LowBytesAgree (shapeOf i).nbytes
      (readLE s.mem (operandAddr s o (formIn s i).len).toNat (shapeOf i).nbytes) S :=
    fun j hj => (readLE_byte s.mem _ hj (shapeOf_bytes i).2).trans (hS j hj).symm
  have hx := (exec_eq_finish hu ht hm hread).trans (finish_next _ (pcWraps_eq_false.2 hpc))
  exact ⟨_, complete_completesIn hagree hx⟩

end

/-- CR4 is 0 at reset: the legacy forms lack OSFXSR and the VEX forms OSXSAVE (10_state.md R35, log 1). -/
theorem undefinedCondition_reset (g : Group) : UndefinedCondition g State.reset := by
  have hcr4 : State.reset.cr4Osfxsr = false ∧ State.reset.cr4Osxsave = false := by decide
  obtain ⟨hfxsr, hxsave⟩ := hcr4
  cases g with
  | legacy => exact .inr (.inr hfxsr)
  | vex128 => exact .inr (.inl hxsave)
  | vex256 => exact .inr (.inl hxsave)

/-- In the VEX format of the family, stored `vvvv` bits other than 1111b are #UD whatever the prefixes are and whatever
follows (60_exceptions.md R121, R125). -/
theorem decodeVexBody_reservedVvvv {mode : Mode} {ps : List Pfx} {rex : Option Rex} {vex1 vex2 : Byte}
    (hmap : vex1.extractLsb' 0 5 = 2#5) (hpp : vex2.extractLsb' 0 2 = 1#2) (hvvvv : vex2.extractLsb' 3 4 ≠ 15#4)
    (k : Pair) (rest : List Byte) : decodeVexBody mode ps rex vex1 vex2 k.opcode rest = .undefinedOpcode := by
  simp only [decodeVexBody, hmap, hpp, bne_self_eq_false, Bool.or_self, Bool.false_eq_true, if_false, pairOf_opcode,
    bne_iff_ne.2 hvvvv, if_true, ite_self]

end Sys2Proof.Machine

/-! CERTIFICATES. The obligations on exceptions (60_exceptions.md): what is #UD by the bytes, by the state and at reset, #NM,
the open alignment case, and what a register-source form can raise. -/

namespace Sys2Proof.Machine

open Sys2Proof

/-! ## #UD and #NM -/

/-- Settles O5: the bytes decode to #UD, which the fetch raises. -/
theorem reservedVvvvRaisesUndefinedOpcode : Obligations.ReservedVvvvRaisesUndefinedOpcode := by
  intro s ps vex1 vex2 k rest hdebug hm he hd hles hmap hpp hvvvv hbytes
  have hdec : decode s.cfg.mode (fetchWindow s).1 = .undefinedOpcode := by
    rw [hbytes]
    exact (decode_vex (rex := none) (modeInSpec_iff.1 hm) hd (fun _ => rfl) hles vex2 k.opcode rest).trans
      (decodeVexBody_reservedVvvv hmap hpp hvvvv k rest)
  rw [step_eq_fetch hdebug hm he, fetchInstr_undefined hdec, andThen_fault]

/-- Settles O33: the #UD check is the first of the skeleton. -/
theorem undefinedConditionsRaiseUndefinedOpcode : Obligations.UndefinedConditionsRaiseUndefinedOpcode :=
  fun _ _ => exec_undefined

/-- Settles O32: a clear feature flag is the first #UD condition of each group. -/
theorem clearFeatureFlagRaisesUndefinedOpcode : Obligations.ClearFeatureFlagRaisesUndefinedOpcode := by
  intro i s hflag
  refine exec_undefined ?_
  revert hflag
  cases groupOf i with
  | legacy => exact fun hflag => .inl hflag
  | vex128 => exact fun hflag => .inl hflag
  | vex256 => exact fun hflag => .inl hflag

/-- Settles O49: CR4 = 0 is a #UD condition of every group. -/
theorem everyFormIsUndefinedAtReset : Obligations.EveryFormIsUndefinedAtReset :=
  fun i => exec_undefined (undefinedCondition_reset (groupOf i))

/-- Settles O34: the #NM check is the second of the skeleton. -/
theorem taskSwitchedRaisesDeviceNotAvailable : Obligations.TaskSwitchedRaisesDeviceNotAvailable :=
  fun _ _ ht hu => exec_notAvailable hu ht

/-! ## The operand -/

/-- Settles O36: the free value of log 9 decides whether the alignment check raises; where it does not, nothing does. -/
theorem misalignedSixteenByteOperandIsOpen : Obligations.MisalignedSixteenByteOperandIsOpen := by
  intro i s o S hen hsrc hn hspace hcheck _ _ hdev hS hpc
  rw [← hn] at hspace hcheck hdev hS
  cases ha : alignmentFaults s (operandAddr s o (formIn s i).len) (shapeOf i).nbytes with
  | true => exact .inl (exec_operandFault hen hsrc hspace (operandFault_ac hcheck ha))
  | false => exact .inr (exec_mem_completes hen hsrc hspace (operandFault_eq_none.2 ⟨hcheck, ha⟩) hdev hS hpc)

/-- Settles O41: the five answers of a register-source form, of which two are faults and two refusals. -/
theorem registerFormsRaiseNoMemoryFault : Obligations.RegisterFormsRaiseNoMemoryFault := by
  intro i s m hsrc
  refine ⟨fun f hf => ?faults, fun hm hpc r hr => ?refusals⟩
  case faults =>
    rcases exec_reg_cases hsrc with h | h | ⟨-, h⟩ | ⟨-, h⟩ | ⟨t, h⟩ <;> rw [h] at hf
    · exact .inl (Host.Outcome.fault.inj hf).symm
    · exact .inr (Host.Outcome.fault.inj hf).symm
    all_goals simp at hf
  case refusals =>
    rcases exec_reg_cases hsrc with h | h | ⟨hother, -⟩ | ⟨hwraps, -⟩ | ⟨t, h⟩
    · simp [h] at hr
    · simp [h] at hr
    · exact modeInSpec_iff.1 hm hother
    · exact hwraps hpc
    · simp [h] at hr

end Sys2Proof.Machine

/-! SUPPORT. The chain of steps that a run follows (70_reset_and_hazards.md R153, decision D23): what a run answers from
each kind of state, how it moves along a chain of steps, and the chain that each run has. -/

namespace Sys2Proof.Machine

open Sys2Proof

/-! ## What a run answers -/

theorem run_of_final {s : State} (fuel : Nat) (h : isFinal s = true) : run fuel s = .final s := by
  cases fuel <;> simp [run, h]

theorem run_zero_of_not_final {s : State} (h : isFinal s = false) : run 0 s = .outOfFuel s := by
  simp [run, h]

theorem run_succ_of_next {s t : State} (fuel : Nat) (h : isFinal s = false) (hstep : step s = .next t) :
    run (fuel + 1) s = run fuel t := by
  simp [run, h, hstep]

theorem run_succ_of_fault {s : State} {e : Fault} (fuel : Nat) (h : isFinal s = false) (hstep : step s = .fault e) :
    run (fuel + 1) s = .fault e := by
  simp [run, h, hstep]

theorem run_succ_of_refused {s : State} {r : Refusal} (fuel : Nat) (h : isFinal s = false)
    (hstep : step s = .refused r) : run (fuel + 1) s = .refused r := by
  simp [run, h, hstep]

/-! ## Chains of steps -/

/-- The first `k` states of a chain are short of `END`, and each steps to the one after it. -/
def StepsFor (k : Nat) (states : Nat → State) : Prop :=
  ∀ j, j < k → step (states j) = .next (states (j + 1)) ∧ isFinal (states j) = false

theorem stepsFor_zero (states : Nat → State) : StepsFor 0 states :=
  fun _ hj => absurd hj (Nat.not_lt_zero _)

/-- Each step along a chain costs a run one unit of fuel and nothing else. -/
theorem run_stepsFor {k : Nat} {states : Nat → State} (h : StepsFor k states) (fuel : Nat) :
    run (k + fuel) (states 0) = run fuel (states k) := by
  induction k generalizing fuel with
  | zero => rw [Nat.zero_add]
  | succ k ih =>
    obtain ⟨hstep, hfin⟩ := h k k.lt_succ_self
    calc run (k + 1 + fuel) (states 0)
        = run (k + (fuel + 1)) (states 0) := by rw [Nat.add_assoc, Nat.add_comm 1]
      _ = run (fuel + 1) (states k) := ih (fun j hj => h j (Nat.lt_succ_of_lt hj)) (fuel + 1)
      _ = run fuel (states (k + 1)) := run_succ_of_next fuel hfin hstep

/-- The states that the iterated step reaches from a state; a state that does not step stays. -/
def trace : State → Nat → State
  | s, 0 => s
  | s, k + 1 =>
    match step s with
    | .next t => trace t k
    | .fault _ => s
    | .refused _ => s

@[simp] theorem trace_zero (s : State) : trace s 0 = s := rfl

theorem trace_succ_of_next {s t : State} (hstep : step s = .next t) (k : Nat) : trace s (k + 1) = trace t k := by
  simp [trace, hstep]

/-- A state that steps goes in front of the chain of the next state. -/
theorem stepsFor_trace_succ {k : Nat} {s t : State} (hfin : isFinal s = false) (hstep : step s = .next t)
    (h : StepsFor k (trace t)) : StepsFor (k + 1) (trace s) := by
  intro j hj
  cases j with
  | zero => exact ⟨by rw [trace_succ_of_next hstep, trace_zero, trace_zero, hstep], hfin⟩
  | succ j =>
    rw [trace_succ_of_next hstep, trace_succ_of_next hstep]
    exact h j (Nat.lt_of_succ_lt_succ hj)

/-! ## Where a run ends -/

/-- The answer of a run with this fuel that takes `k` steps and then is in the state `last`. -/
def EndsAt (fuel k : Nat) (last : State) : RunResult → Prop
  | .final t => t = last ∧ isFinal t = true
  | .fault e => k < fuel ∧ isFinal last = false ∧ step last = .fault e
  | .refused r => k < fuel ∧ isFinal last = false ∧ step last = .refused r
  | .outOfFuel t => k = fuel ∧ t = last ∧ isFinal t = false

/-- One more step in front takes one more unit of fuel. -/
theorem EndsAt.succ {fuel k : Nat} {last : State} {o : RunResult} (h : EndsAt fuel k last o) :
    EndsAt (fuel + 1) (k + 1) last o := by
  cases o with
  | final t => exact h
  | fault e => exact h.imp_left Nat.succ_lt_succ
  | refused r => exact h.imp_left Nat.succ_lt_succ
  | outOfFuel t => exact h.imp_left (congrArg (· + 1))

/-- Every run follows the iterated step from its first state, up to the state that gives its answer. -/
theorem run_endsAt_trace (fuel : Nat) (s : State) :
    ∃ k, k ≤ fuel ∧ StepsFor k (trace s) ∧ EndsAt fuel k (trace s k) (run fuel s) := by
  induction fuel generalizing s with
  | zero =>
    refine ⟨0, le_rfl, stepsFor_zero _, ?_⟩
    cases hfin : isFinal s with
    | true => rw [run_of_final 0 hfin]; exact ⟨rfl, hfin⟩
    | false => rw [run_zero_of_not_final hfin]; exact ⟨rfl, rfl, hfin⟩
  | succ fuel ih =>
    cases hfin : isFinal s with
    | true =>
      refine ⟨0, Nat.zero_le _, stepsFor_zero _, ?_⟩
      rw [run_of_final _ hfin]
      exact ⟨rfl, hfin⟩
    | false =>
      cases hstep : step s with
      | next t =>
        obtain ⟨k, hk, hchain, hend⟩ := ih t
        refine ⟨k + 1, Nat.succ_le_succ hk, stepsFor_trace_succ hfin hstep hchain, ?_⟩
        rw [run_succ_of_next fuel hfin hstep, trace_succ_of_next hstep]
        exact hend.succ
      | fault e =>
        refine ⟨0, Nat.zero_le _, stepsFor_zero _, ?_⟩
        rw [run_succ_of_fault fuel hfin hstep]
        exact ⟨fuel.succ_pos, hfin, hstep⟩
      | refused r =>
        refine ⟨0, Nat.zero_le _, stepsFor_zero _, ?_⟩
        rw [run_succ_of_refused fuel hfin hstep]
        exact ⟨fuel.succ_pos, hfin, hstep⟩

/-! ## The obligation -/

/-- Settles O51: along a chain a run answers what it answers from the chain's last state, and the chain of a run is the
iterated step, by induction on the fuel. -/
theorem runIteratesTheStep : Obligations.RunIteratesTheStep := by
  refine ⟨fun k fuel states hstep hlive => ?along, fun fuel s => ?chain⟩
  case along =>
    have hrun := run_stepsFor fun j hj => ⟨hstep j hj, hlive j hj⟩
    refine ⟨fun hfin => ?_, fun hfin => ⟨?_, fun e he => ?_, fun r hr => ?_⟩⟩
    · rw [hrun, run_of_final fuel hfin]
    · exact (hrun 0).trans (run_zero_of_not_final hfin)
    · rw [Nat.add_assoc, Nat.add_comm 1, hrun, run_succ_of_fault fuel hfin he]
    · rw [Nat.add_assoc, Nat.add_comm 1, hrun, run_succ_of_refused fuel hfin hr]
  case chain =>
    obtain ⟨k, hk, hchain, hend⟩ := run_endsAt_trace fuel s
    exact ⟨k, trace s, hk, trace_zero s, hchain, hend⟩

end Sys2Proof.Machine
